-- ==== Sys2Proof/Word.lean ====
section
/-! DEFINITION. The word and byte types of TLVI. All values are unsigned (rule R9). -/

namespace Sys2Proof

/-- A byte: "an 8-bit unsigned value" (rule R13). -/
abbrev Byte := BitVec 8

/-- A register, command, DATA or response word, 32 bits (rules R7, R15, R47). -/
abbrev Word := BitVec 32

end Sys2Proof
end

