-- ==== Sys2Proof/Syntax.lean ====
section
/-! DEFINITION. The commands of TLVI: one constructor per row of spec/opcode_table.json (rule R54), their operands
(rules R49 to R52), the error codes (rule R95) and the pseudo-instructions (rule R59). -/

namespace Sys2Proof

/-- The byte-number operand BN (rule R50): 1, 2 and 3 are tag-byte positions; 0 "has no meaning". -/
inductive ByteNo
  | zero
  | first
  | second
  | third
  deriving DecidableEq, Repr

/-- The register selector RS (rules R15, R51). `undefined k` is selector `5 + k`, one of 5 to 15. -/
inductive RegSel
  | cur
  | endr
  | tag
  | len
  | st
  | undefined (k : Fin 11)
  deriving DecidableEq, Repr

/-- Every error TLVI can raise (rule R95). -/
inductive ErrCode
  | illegalOpcode
  | reservedBits
  | badBn
  | badReg
  | roWrite
  | access
  deriving DecidableEq, Repr

/-- A command, decoded (rule R54). -/
inductive Instr
  /-- TCLASS b (rule R61). -/
  | tclass (b : Byte)
  /-- TCONS b (rule R62). -/
  | tcons (b : Byte)
  /-- TPRIM b (rule R63). -/
  | tprim (b : Byte)
  /-- TMULTI b (rule R64). -/
  | tmulti (b : Byte)
  /-- TLAST b (rule R65). -/
  | tlast (b : Byte)
  /-- TVALID b, n (rule R66). -/
  | tvalid (b : Byte) (n : ByteNo)
  /-- TNUMF b, n (rule R68). -/
  | tnumf (b : Byte) (n : ByteNo)
  /-- LVALID b (rule R71). -/
  | lvalid (b : Byte)
  /-- LMULTI b (rule R72). -/
  | lmulti (b : Byte)
  /-- LGETLEN b (rule R73). -/
  | lgetlen (b : Byte)
  /-- TPARSE (rule R78). -/
  | tparse
  /-- LPARSE (rule R83). -/
  | lparse
  /-- RD reg (rule R89). -/
  | rd (r : RegSel)
  /-- WR reg, value (rule R90). -/
  | wr (r : RegSel) (value : Word)
  /-- CLRERR (rule R92). -/
  | clrerr
  deriving DecidableEq, Repr

/-- The pseudo-instructions (rule R59); "No other pseudo-instruction exists". -/
inductive Pseudo
  | tvalid1 (b : Byte)
  | tvalid2 (b : Byte)
  | tvalid3 (b : Byte)
  | seek (a : Word)
  | range (a e : Word)
  deriving DecidableEq, Repr

end Sys2Proof
end

