-- ==== Sys2Proof/WellFormed.lean ====
section
/-! DEFINITION. Which commands the assembler writes (rule R58): "An assembler refuses n = 0, which can only be encoded
by hand". An undefined selector may be written (`#5` to `#15`), so it is well-formed and raises BAD_REG when run. -/

namespace Sys2Proof

/-- The byte number is one the assembler accepts, 1 to 3 (rule R58). -/
def ByteNo.wellFormed : ByteNo → Bool
  | .zero => false
  | .first => true
  | .second => true
  | .third => true

/-- The command is one the assembler accepts (rule R58). -/
def Instr.wellFormed : Instr → Bool
  | .tclass _ => true
  | .tcons _ => true
  | .tprim _ => true
  | .tmulti _ => true
  | .tlast _ => true
  | .tvalid _ n => n.wellFormed
  | .tnumf _ n => n.wellFormed
  | .lvalid _ => true
  | .lmulti _ => true
  | .lgetlen _ => true
  | .tparse => true
  | .lparse => true
  | .rd _ => true
  | .wr _ _ => true
  | .clrerr => true

end Sys2Proof
end

