-- ==== Sys2Proof/Decode.lean ====
section
/-! DEFINITION. Decoding a command pair `(cmd, DATA)` (rules R47 to R56), total, rejecting by name; then the encoder
(rules R54, R60) and the pseudo-instructions' expansion (rule R59). A command is decoded as rule R56 says in its steps
1 and 2 (OP, then the must-be-zero bits); steps 3 and 4 (BN, RS, read-only) are checked by the command's meaning, which
raises the error (log 12). -/

namespace Sys2Proof

/-! ### The fields of format C (rule R48) -/

/-- OP = cmd[31:24]. -/
def opField (cmd : Word) : Byte := cmd.extractLsb' 24 8

/-- RS = cmd[19:16]. -/
def rsField (cmd : Word) : BitVec 4 := cmd.extractLsb' 16 4

/-- BN = cmd[9:8]. -/
def bnField (cmd : Word) : BitVec 2 := cmd.extractLsb' 8 2

/-- B = cmd[7:0]. -/
def bField (cmd : Word) : Byte := cmd.extractLsb' 0 8

/-! ### Operands (rules R50, R51) -/

/-- The byte number a BN field stands for (rule R50). -/
def ByteNo.ofBits (n : BitVec 2) : ByteNo :=
  match n.toNat with
  | 0 => .zero
  | 1 => .first
  | 2 => .second
  | _ => .third

/-- The BN field of a byte number (rule R50). -/
def ByteNo.toBits : ByteNo → BitVec 2
  | .zero => 0
  | .first => 1
  | .second => 2
  | .third => 3

/-- The register an RS field selects (rules R15, R51). -/
def RegSel.ofBits (r : BitVec 4) : RegSel :=
  match r.toNat with
  | 0 => .cur
  | 1 => .endr
  | 2 => .tag
  | 3 => .len
  | 4 => .st
  | k + 5 => .undefined (Fin.ofNat 11 k)

/-- The RS field of a selector (rules R15, R51). -/
def RegSel.toBits : RegSel → BitVec 4
  | .cur => 0
  | .endr => 1
  | .tag => 2
  | .len => 3
  | .st => 4
  | .undefined k => BitVec.ofNat 4 (k.val + 5)

/-! ### The decoder -/

/-- Rule R53's must-be-zero bits of a command that uses B alone: cmd[23:8]. -/
def reservedOfB : Word := 0x00FFFF00

/-- Rule R53's must-be-zero bits of TVALID and TNUMF: cmd[23:10]. -/
def reservedOfBnB : Word := 0x00FFFC00

/-- Rule R53's must-be-zero bits of TPARSE, LPARSE and CLRERR: cmd[23:0]. -/
def reservedOfNone : Word := 0x00FFFFFF

/-- Rule R53's must-be-zero bits of RD and WR: cmd[23:20] and cmd[15:0]. -/
def reservedOfRs : Word := 0x00F0FFFF

/-- Step 2 of rule R56: the must-be-zero bits are checked, and the command is not performed when one is set. -/
def ifReservedClear (cmd reserved : Word) (i : Instr) : Except ErrCode Instr :=
  if cmd &&& reserved = 0 then .ok i else .error .reservedBits

/-- Steps 1 and 2 of rule R56 over the opcode map of rule R54; every OP not listed is illegal (rule R55). DATA is the
value of WR and is ignored by every other command (rule R52). -/
def decode (cmd data : Word) : Except ErrCode Instr :=
  match (opField cmd).toNat with
  | 0x01 => ifReservedClear cmd reservedOfB (.tclass (bField cmd))
  | 0x02 => ifReservedClear cmd reservedOfB (.tcons (bField cmd))
  | 0x03 => ifReservedClear cmd reservedOfB (.tprim (bField cmd))
  | 0x04 => ifReservedClear cmd reservedOfB (.tmulti (bField cmd))
  | 0x05 => ifReservedClear cmd reservedOfB (.tlast (bField cmd))
  | 0x06 => ifReservedClear cmd reservedOfBnB (.tvalid (bField cmd) (ByteNo.ofBits (bnField cmd)))
  | 0x07 => ifReservedClear cmd reservedOfBnB (.tnumf (bField cmd) (ByteNo.ofBits (bnField cmd)))
  | 0x11 => ifReservedClear cmd reservedOfB (.lvalid (bField cmd))
  | 0x12 => ifReservedClear cmd reservedOfB (.lmulti (bField cmd))
  | 0x13 => ifReservedClear cmd reservedOfB (.lgetlen (bField cmd))
  | 0x21 => ifReservedClear cmd reservedOfNone .tparse
  | 0x22 => ifReservedClear cmd reservedOfNone .lparse
  | 0x31 => ifReservedClear cmd reservedOfRs (.rd (RegSel.ofBits (rsField cmd)))
  | 0x32 => ifReservedClear cmd reservedOfRs (.wr (RegSel.ofBits (rsField cmd)) data)
  | 0x33 => ifReservedClear cmd reservedOfNone .clrerr
  | _ => .error .illegalOpcode

/-- The host's reading of the decoder on an opcode-table row: bits 31..0 of `w` are cmd, bits 63..32 are DATA (the port
carries cmd and then DATA; the table gives DATA no bits), and every bit above `nbits` is 0. -/
def decodeTableWord (nbits w : Nat) : Option Instr :=
  match decode (BitVec.ofNat 32 (w % 2 ^ nbits)) (BitVec.ofNat 32 (w % 2 ^ nbits / 2 ^ 32)) with
  | .ok i => some i
  | .error _ => none

/-! ### The encoder (rules R54, R60) -/

/-- `cmd = OP<<24 | RS<<16 | BN<<8 | B` (rule R60). -/
def cmdWord (op : Byte) (rs : BitVec 4) (bn : BitVec 2) (b : Byte) : Word :=
  (op.setWidth 32 <<< 24) ||| (rs.setWidth 32 <<< 16) ||| (bn.setWidth 32 <<< 8) ||| b.setWidth 32

/-- The OP of a command (rule R54). -/
def Instr.opcode : Instr → Byte
  | .tclass _ => 0x01
  | .tcons _ => 0x02
  | .tprim _ => 0x03
  | .tmulti _ => 0x04
  | .tlast _ => 0x05
  | .tvalid _ _ => 0x06
  | .tnumf _ _ => 0x07
  | .lvalid _ => 0x11
  | .lmulti _ => 0x12
  | .lgetlen _ => 0x13
  | .tparse => 0x21
  | .lparse => 0x22
  | .rd _ => 0x31
  | .wr _ _ => 0x32
  | .clrerr => 0x33

/-- The pair `(cmd, DATA)` the assembler writes: unused fields 0, DATA the WR value or 0 (rule R60). -/
def encode (i : Instr) : Word × Word :=
  match i with
  | .tclass b => (cmdWord i.opcode 0 0 b, 0)
  | .tcons b => (cmdWord i.opcode 0 0 b, 0)
  | .tprim b => (cmdWord i.opcode 0 0 b, 0)
  | .tmulti b => (cmdWord i.opcode 0 0 b, 0)
  | .tlast b => (cmdWord i.opcode 0 0 b, 0)
  | .tvalid b n => (cmdWord i.opcode 0 n.toBits b, 0)
  | .tnumf b n => (cmdWord i.opcode 0 n.toBits b, 0)
  | .lvalid b => (cmdWord i.opcode 0 0 b, 0)
  | .lmulti b => (cmdWord i.opcode 0 0 b, 0)
  | .lgetlen b => (cmdWord i.opcode 0 0 b, 0)
  | .tparse => (cmdWord i.opcode 0 0 0, 0)
  | .lparse => (cmdWord i.opcode 0 0 0, 0)
  | .rd r => (cmdWord i.opcode r.toBits 0 0, 0)
  | .wr r value => (cmdWord i.opcode r.toBits 0 0, value)
  | .clrerr => (cmdWord i.opcode 0 0 0, 0)

/-- The expansion of a pseudo-instruction, in order (rule R59). -/
def Pseudo.expand : Pseudo → List Instr
  | .tvalid1 b => [.tvalid b .first]
  | .tvalid2 b => [.tvalid b .second]
  | .tvalid3 b => [.tvalid b .third]
  | .seek a => [.wr .cur a]
  | .range a e => [.wr .cur a, .wr .endr e]

end Sys2Proof
end

