-- ==== Sys2Proof/Machine/Flags.lean ====
section
/-! DEFINITION. The status register ST (rule R22): its fields, what each command writes of them (rule R23), and the
codes ECODE holds (rule R95). ST is a word the host reads whole (RD ST), so it is a bit vector with named fields. -/

namespace Sys2Proof.Machine

/-- The word with bit `i` set to `v`. -/
def setBit (w : Word) (i : Nat) (v : Bool) : Word :=
  if v then w ||| BitVec.twoPow 32 i else w &&& ~~~ BitVec.twoPow 32 i

/-! ### The fields of ST (rule R22) -/

/-- ST.EXH, bit 0. -/
def St.exh (st : Word) : Bool := st.getLsbD 0
/-- ST.SKIP, bit 1. -/
def St.skip (st : Word) : Bool := st.getLsbD 1
/-- ST.TOK, bit 2. -/
def St.tok (st : Word) : Bool := st.getLsbD 2
/-- ST.CONS, bit 3. -/
def St.cons (st : Word) : Bool := st.getLsbD 3
/-- ST.LOK, bit 4. -/
def St.lok (st : Word) : Bool := st.getLsbD 4
/-- ST.LINV, bit 5. -/
def St.linv (st : Word) : Bool := st.getLsbD 5
/-- ST.LLONG, bit 6. -/
def St.llong (st : Word) : Bool := st.getLsbD 6
/-- ST.ERR, bit 8. -/
def St.err (st : Word) : Bool := st.getLsbD 8
/-- ST.ECODE, bits 15:12. -/
def St.ecode (st : Word) : BitVec 4 := st.extractLsb' 12 4

/-- The word with ST.ECODE, bits 15:12, set to `c`. -/
def St.setEcode (st : Word) (c : BitVec 4) : Word :=
  (st &&& ~~~ 0x0000F000#32) ||| (c.setWidth 32 <<< 12)

/-! ### What the commands write (rule R23) -/

/-- What TPARSE writes: EXH, SKIP, TOK and CONS, nothing else (rules R23, R80, R82). -/
def St.withTagFlags (st : Word) (tok exh cons skip : Bool) : Word :=
  setBit (setBit (setBit (setBit st 2 tok) 0 exh) 3 cons) 1 skip

/-- What LPARSE writes: EXH, LOK, LINV and LLONG, nothing else (rules R23, R85). -/
def St.withLenFlags (st : Word) (lok linv exh llong : Bool) : Word :=
  setBit (setBit (setBit (setBit st 4 lok) 5 linv) 0 exh) 6 llong

/-- What ECODE holds for an error (rule R95). -/
def ErrCode.ecode : ErrCode → BitVec 4
  | .illegalOpcode => 1
  | .reservedBits => 2
  | .badBn => 3
  | .badReg => 4
  | .roWrite => 5
  | .access => 6

/-- ERR becomes 1, and ECODE the code only if ERR was 0: the first error is kept (rule R97). -/
def St.withError (st : Word) (c : ErrCode) : Word :=
  if St.err st then setBit st 8 true else St.setEcode (setBit st 8 true) (ErrCode.ecode c)

/-- ERR and ECODE become 0, every other field unchanged (rule R92). -/
def St.clearError (st : Word) : Word :=
  St.setEcode (setBit st 8 false) 0

end Sys2Proof.Machine
end

