-- ==== Sys2Proof/Config.lean ====
section
/-! DEFINITION. What is fixed for the machine: the limits of rule R6, the parameters of rule R7, and the free bytes
that stand for reads the spec leaves unspecified (rule R118). -/

namespace Sys2Proof.Config

/-- `MAX_TAG_BYTES` (rule R6). -/
def maxTagBytes : Nat := 3

/-- `MIN_TAG_BYTES` (rule R6). -/
def minTagBytes : Nat := 1

/-- `MAX_LEN_COUNT`: a long form has N ∈ 1..4 value bytes (rule R6). -/
def maxLenCount : Nat := 4

/-- `MAX_LEN_VALUE` (rule R6). -/
def maxLenValue : Nat := 4294967295

/-- `SHORT_LEN_MAX` (rule R6). -/
def shortLenMax : Nat := 127

/-- INSIZE is a natural number at most 2^32 (rules R7, R31). -/
def maxInSize : Nat := 2 ^ 32

/-- INSIZE of `State.reset`. DESIGN CHOICE (log 5, unsafe for a claim about runs from reset alone): the spec leaves
INSIZE open; it is a field of State, so a statement about every state is about every INSIZE. -/
def resetInSize : Nat := maxInSize

/-- What an address of IN that the cell list does not name reads as. DESIGN CHOICE (log 4): the spec gives IN no
contents; every contents function is one list of cells. -/
def unlistedByte : Byte := 0

/-- The free bytes: the `k`-th read that a broken host duty affects returns `freeByte k`, of which nothing is known
(rules R43, R118; 93_implementation_defined.md U5 "any value"; log 6). -/
opaque freeByte : Nat → Byte

end Sys2Proof.Config
end

