-- ==== Sys2Proof/Machine/State.lean ====
section
/-! DEFINITION. The state of TLVI as plain data: the five registers (rule R15), the input buffer IN (rule R31), the
command port's pending inputs and its response (rules R11, R57), and the model's own counter of free bytes (log 6). -/

namespace Sys2Proof.Machine

/-- The input buffer IN (rule R31). `size` is INSIZE; `cells` are the bytes that differ from what an unlisted address
reads as, addresses strictly rising; `erratic` are the addresses at which the platform does not give plain memory
(duty 2 of rule R117, broken; log 7), strictly rising. -/
structure Memory where
  size    : Nat
  cells   : List Host.Cell
  erratic : List Nat
  deriving DecidableEq, Repr

/-- The canonical form of IN: INSIZE at most 2^32 (rule R7), the cells inside the buffer, their addresses strictly
rising, none equal to what an unlisted address reads as; the erratic addresses likewise. -/
abbrev Memory.wf (m : Memory) : Prop :=
  m.size ≤ Config.maxInSize ∧
  m.cells.Pairwise (fun c d => c.1 < d.1) ∧
  (∀ c ∈ m.cells, c.1 < m.size ∧ c.2 ≠ Config.unlistedByte) ∧
  m.erratic.Pairwise (· < ·) ∧
  (∀ a ∈ m.erratic, a < m.size)

/-- The response to a command (rule R57): `rsp` and `rerr`. -/
structure Response where
  rsp  : Word
  rerr : Bool
  deriving DecidableEq, Repr

/-- What the outside can do at TLVI's boundary, one event a step (log 1). -/
inductive PortEvent
  /-- The host presents a command and waits for its response (rules R11, R117 duty 4). -/
  | command (cmd data : Word)
  /-- The host writes a byte of IN between commands (rules R33, R43). -/
  | hostWrite (a : Nat) (b : Byte)
  /-- Reset while no command executes (rule R110). -/
  | reset
  /-- Reset while this command executes (rule R111). -/
  | resetDuring (cmd data : Word)
  /-- The host presents a command and, against duty 3 of rule R117, writes these bytes of IN while it executes
  (rules R43, R118). -/
  | racing (cmd data : Word) (writes : List Host.Cell)
  /-- Against duty 4 of rule R117, the host presents a second command before the first has responded (rule R118;
  93_implementation_defined.md U12). -/
  | overlapping (cmd data cmd2 data2 : Word)
  deriving DecidableEq, Repr

/-- The machine. -/
structure State where
  /-- CUR, the cursor (rule R17). -/
  cur   : Word
  /-- END, the exclusive end of the range (rule R18). -/
  endr  : Word
  /-- TAG (rule R19). -/
  tag   : Word
  /-- LEN (rule R21). -/
  len   : Word
  /-- ST, the status register (rule R22). -/
  st    : Word
  /-- IN, the host's input buffer (rule R31). -/
  mem   : Memory
  /-- What the outside does next, in order (log 1). -/
  port  : List PortEvent
  /-- The response of the latest command; none when no command has responded since reset (rule R110; log 2). -/
  resp  : Option Response
  /-- THE MODEL'S OWN: how many free bytes have been drawn (log 6). -/
  draws : Nat
  deriving DecidableEq, Repr

/-- Why the machine stops. No command stops it: a command error is a next state (rule R97). -/
inductive Fault
  /-- Raised by `PortEvent.overlapping`: "stuck: the port has no step for it" (93_implementation_defined.md U12; rule
  R118). Safe: nothing is claimed of the machine after it (log 10). -/
  | portBusy
  /-- Raised by `PortEvent.hostWrite` and `PortEvent.racing` at an address at or above INSIZE: IN has no such byte (rule
  R31). Safe: nothing is claimed of the machine after it (log 9). -/
  | hostWriteOutsideIn
  deriving DecidableEq, Repr

/-- Why a command has no meaning. -/
inductive Refusal
  /-- Raised by an arm of exec whose instruction has no meaning yet; no arm is left so. Safe. -/
  | notModelled (mnemonic : String)
  deriving DecidableEq, Repr

/-- The machine right after reset (rules R30, R110): the registers 0, no response, no command presented. INSIZE, the
contents of IN and the counter are the model's choices (log 4, 5, 6, 7). -/
def State.reset : State where
  cur   := 0
  endr  := 0
  tag   := 0
  len   := 0
  st    := 0
  mem   := { size := Config.resetInSize, cells := [], erratic := [] }
  port  := []
  resp  := none
  draws := 0

end Sys2Proof.Machine
end

