-- ==== Sys2Proof/Machine/Operands.lean ====
section
/-! DEFINITION. The operand forms and the bit-level classifiers every command shares: the byte's fields (rules R61 to
R68, R71 to R73), the packing of TAG (rule R19), the big-endian accumulation (rules R36, R84) and the register file as
RD sees it (rule R89). -/

namespace Sys2Proof.Machine

/-- `bit(c)` as a response value (rule R9). -/
def bitWord (c : Bool) : Word := if c then 1 else 0

/-- A byte zero-extended to 32 bits (rules R9, R49). -/
def zextByte (b : Byte) : Word := b.setWidth 32

/-! ### Family T (41_tag_inspector.md) -/

/-- Bits 7-6: Universal 0, Application 1, Context-Specific 2, Private 3 (rule R61). -/
def tagClass (b : Byte) : BitVec 2 := b.extractLsb' 6 2

/-- Bit 5 set: Constructed (rule R62; 90_conflicts.md C4). -/
def tagConstructed (b : Byte) : Bool := b.getLsbD 5

/-- Low five bits equal to 0x1F (rule R64). -/
def tagMultiByte (b : Byte) : Bool := b.extractLsb' 0 5 == 0x1F#5

/-- Bit 7 clear (rule R65). -/
def tagLast (b : Byte) : Bool := !b.getLsbD 7

/-- `TagValid(b, n)`: exact equalities, not ranges (rule R66; 93_implementation_defined.md U1, G2). -/
def tagValid (b : Byte) (n : ByteNo) : Bool :=
  if (n = .first ∨ n = .second) ∧ b = 0x00 then false
  else if n = .second ∧ (b = 0x1E ∨ b = 0x80) then false
  else true

/-- The tag-number field at a position: bits 4-0 of a first byte, bits 6-0 of a later one (rule R68). -/
def tagNumberField (b : Byte) (n : ByteNo) : Word :=
  if n = .first then (b.extractLsb' 0 5).setWidth 32 else (b.extractLsb' 0 7).setWidth 32

/-! ### Family L (42_length_inspector.md) -/

/-- `LenValid(b)`: neither 0x80 nor above 0x84 (rule R71). -/
def lenValid (b : Byte) : Bool := b != 0x80 && decide (b ≤ 0x84)

/-- Bit 7 set (rule R72). -/
def lenMultiByte (b : Byte) : Bool := b.getLsbD 7

/-- Low seven bits (rule R73). -/
def lenField (b : Byte) : BitVec 7 := b.extractLsb' 0 7

/-! ### Assembling the fields (43_field_parser.md) -/

/-- TAG with TAGLEN `k` and the right-aligned bytes: `{0b000000, k[1:0], bytes}` (rules R19, R78). -/
def packTag (k : BitVec 2) (bytes : BitVec 24) : Word := 0#6 ++ k ++ bytes

/-- The 1-byte tag's TBYTES (rule R19). -/
def tagBytes1 (b1 : Byte) : BitVec 24 := b1.setWidth 24

/-- The 2-byte tag's TBYTES, first byte most significant (rules R19, R37). -/
def tagBytes2 (b1 b2 : Byte) : BitVec 24 := (b1 ++ b2).setWidth 24

/-- The 3-byte tag's TBYTES, first byte most significant (rules R19, R37). -/
def tagBytes3 (b1 b2 b3 : Byte) : BitVec 24 := b1 ++ b2 ++ b3

/-- One byte of a long-form length, big-endian: `(acc << 8) | zext_32(d)` (rules R36, R83). -/
def accByte (acc : Word) (d : Byte) : Word := (acc <<< 8) ||| zextByte d

/-- TAGLEN, TAG[25:24] (rule R19). -/
def tagLenField (tag : Word) : BitVec 2 := tag.extractLsb' 24 2

/-- TBYTES, TAG[23:0] (rule R19). -/
def tagBytesField (tag : Word) : BitVec 24 := tag.extractLsb' 0 24

/-! ### The register file (rules R15, R89) -/

/-- `[CUR, END, TAG, LEN, ST][RS]`; none for selectors 5 to 15, which name no register (rules R51, R89). -/
def readReg (s : State) : RegSel → Option Word
  | .cur => some s.cur
  | .endr => some s.endr
  | .tag => some s.tag
  | .len => some s.len
  | .st => some s.st
  | .undefined _ => none

end Sys2Proof.Machine
end

