-- ==== Sys2Proof/Machine/Ops.lean ====
section
/-! DEFINITION. The named operations over state that the meanings share: the field updates, the input buffer (rules R31
to R35), a read at the cursor (rules R34, R76), the response (rule R57), raising an error (rule R97) and the return from
it (rules R92, R98), and reset (rules R110, R111). -/

namespace Sys2Proof.Machine

/-! ### One update per field -/

def State.setCur (s : State) (v : Word) : State := { s with cur := v }
def State.setEnd (s : State) (v : Word) : State := { s with endr := v }
def State.setTag (s : State) (v : Word) : State := { s with tag := v }
def State.setLen (s : State) (v : Word) : State := { s with len := v }
def State.setSt (s : State) (v : Word) : State := { s with st := v }
def State.setMem (s : State) (v : Memory) : State := { s with mem := v }
def State.setPort (s : State) (v : List PortEvent) : State := { s with port := v }
def State.setResp (s : State) (v : Option Response) : State := { s with resp := v }
def State.setDraws (s : State) (v : Nat) : State := { s with draws := v }

/-! ### The input buffer -/

/-- The byte the cell list gives an address; an unlisted address reads as `Config.unlistedByte` (log 4). -/
def cellAt : List Host.Cell → Nat → Byte
  | [], _ => Config.unlistedByte
  | c :: cs, a => if c.1 = a then c.2 else cellAt cs a

/-- The cell list with address `a` holding `b`, in canonical form: rising addresses, no cell equal to what an unlisted
address reads as. -/
def putCell : List Host.Cell → Nat → Byte → List Host.Cell
  | [], a, b => if b = Config.unlistedByte then [] else [(a, b)]
  | c :: cs, a, b =>
    if c.1 < a then c :: putCell cs a b
    else if c.1 = a then (if b = Config.unlistedByte then cs else (a, b) :: cs)
    else (if b = Config.unlistedByte then c :: cs else (a, b) :: c :: cs)

/-- The rising address list with `a` added. -/
def putAddr : List Nat → Nat → List Nat
  | [], a => [a]
  | x :: xs, a => if x < a then x :: putAddr xs a else if x = a then x :: xs else a :: x :: xs

/-- The byte IN holds at an address. -/
def Memory.byteAt (m : Memory) (a : Nat) : Byte := cellAt m.cells a

/-- IN after the host wrote `b` at `a`; none when IN has no byte there (rules R31, R43). -/
def Memory.write (m : Memory) (a : Nat) (b : Byte) : Option Memory :=
  if m.size ≤ a then none else some { m with cells := putCell m.cells a b }

/-- IN after the host wrote each of these bytes in order; none when one lies outside IN. -/
def Memory.writeAll (m : Memory) : List Host.Cell → Option Memory
  | [] => some m
  | c :: cs =>
    match m.write c.1 c.2 with
    | none => none
    | some m' => m'.writeAll cs

/-- IN while the host writes at these addresses during a command: reads there are affected too (rules R43, R118). -/
def Memory.disturb (m : Memory) (writes : List Host.Cell) : Memory :=
  { m with erratic := writes.foldl (fun l c => putAddr l c.1) m.erratic }

/-- `MemRead(a, 1)` (rule R35), with the number of the next free byte: none is ACCESS, raised at or above INSIZE. A
read that a broken host duty affects gives a free byte (rule R118), any other the byte IN holds. -/
def Memory.read (m : Memory) (a draws : Nat) : Option (Byte × Nat) :=
  if m.size ≤ a then none
  else if a ∈ m.erratic then some (Config.freeByte draws, draws + 1)
  else some (m.byteAt a, draws)

/-! ### A read at the cursor -/

/-- The bytes of the range `[CUR, END)` not yet consumed; 0 when the range is exhausted (rule R10). -/
def State.rangeLen (s : State) : Nat := s.endr.toNat - s.cur.toNat

/-- What a parse command finds when it needs a byte (rules R34, R35, R76). -/
inductive Fetch
  /-- `CUR >= END`. -/
  | exhausted
  /-- MemRead raised ACCESS. -/
  | access
  /-- The byte at CUR, and the state with CUR advanced by 1. -/
  | byte (b : Byte) (s : State)
  deriving DecidableEq, Repr

/-- A parse command needs a byte: only when `CUR < END` is it read, and then CUR advances by 1 (rule R34). -/
def nextByte (s : State) : Fetch :=
  if s.endr ≤ s.cur then .exhausted
  else
    match s.mem.read s.cur.toNat s.draws with
    | none => .access
    | some (b, d) => .byte b ((s.setCur (s.cur + 1)).setDraws d)

/-! ### The response, an error, and the return from it -/

/-- A command that succeeds answers `(rsp, rerr = 0)` (rules R11, R57). -/
def respond (rsp : Word) (s : State) : State := s.setResp (some { rsp := rsp, rerr := false })

/-- `raise Error(c)` (rule R97): ERR and ECODE record it, the response is `(0, rerr = 1)`, nothing else changes. -/
def raiseError (c : ErrCode) (s : State) : State :=
  (s.setSt (St.withError s.st c)).setResp (some { rsp := 0, rerr := true })

/-- ACCESS raised by a parse command that began in `s0` and had come to `s`: the state is as it was before the command
but for the error record (rules R77, R97). The free bytes drawn so far stay drawn, so that a later read is a fresh one
(log 11). -/
def raiseAccess (s0 s : State) : State := raiseError .access (s0.setDraws s.draws)

/-- The return from error (rules R92, R98): ERR and ECODE become 0. -/
def clearError (s : State) : State := s.setSt (St.clearError s.st)

/-- Reset (rules R110, R111): every register 0, no response; IN, the platform and what the host does next are not
TLVI's and stay (log 18). -/
def State.applyReset (s : State) : State :=
  (((((s.setCur 0).setEnd 0).setTag 0).setLen 0).setSt 0).setResp none

end Sys2Proof.Machine
end

