-- ==== Sys2Proof/Machine/FieldParser.lean ====
section
/-! DEFINITION. Family P, the tag and length field parser (43_field_parser.md): TPARSE and LPARSE, the only commands
that read IN (rule R31) and the only ones that advance CUR by themselves. -/

namespace Sys2Proof.Machine

/-! ### TPARSE -/

/-- `TagDone(k, bytes, first)` (rules R78, R80). -/
def tagDone (k : BitVec 2) (bytes : BitVec 24) (first : Byte) (skipped : Bool) (s : State) : State :=
  respond (packTag k bytes)
    ((s.setTag (packTag k bytes)).setSt (St.withTagFlags s.st true false (tagConstructed first) skipped))

/-- `TagExhausted()` (rules R78, R82): the partial tag is discarded. -/
def tagExhausted (skipped : Bool) (s : State) : State :=
  respond 0 ((s.setTag 0).setSt (St.withTagFlags s.st false true false skipped))

/-- How the search for a valid first byte ends (rule R81). -/
inductive FirstByte
  | exhausted (skipped : Bool) (s : State)
  | access (s : State)
  | found (b1 : Byte) (skipped : Bool) (s : State)
  deriving DecidableEq, Repr

/-- The skip loop (rules R78, R81): each byte 0x00 at the position of a first byte is consumed. `fuel` is at least the
number of bytes left in the range, so it runs out only where the range does. -/
def findFirst : Nat → Bool → State → FirstByte
  | 0, skipped, s => .exhausted skipped s
  | fuel + 1, skipped, s =>
    match nextByte s with
    | .exhausted => .exhausted skipped s
    | .access => .access s
    | .byte b1 s' => if tagValid b1 .first then .found b1 skipped s' else findFirst fuel true s'

/-- The third byte: it ends the tag, whatever its bit 7 (rule R79; 90_conflicts.md C2). -/
def thirdTagByte (s0 : State) (b1 b2 : Byte) (skipped : Bool) (s : State) : State :=
  match nextByte s with
  | .exhausted => tagExhausted skipped s
  | .access => raiseAccess s0 s
  | .byte b3 s' => tagDone 3 (tagBytes3 b1 b2 b3) b1 skipped s'

/-- The second byte: it ends the tag when its bit 7 is 0 (rule R79); it is not checked for validity (rule R67). -/
def secondTagByte (s0 : State) (b1 : Byte) (skipped : Bool) (s : State) : State :=
  match nextByte s with
  | .exhausted => tagExhausted skipped s
  | .access => raiseAccess s0 s
  | .byte b2 s' => if tagLast b2 then tagDone 2 (tagBytes2 b1 b2) b1 skipped s' else thirdTagByte s0 b1 b2 skipped s'

/-- The tag phase from `s` (rule R78); `s` is the state before the command, to which an ACCESS returns (rule R77). -/
def tagPhase (s : State) : State :=
  match findFirst s.rangeLen false s with
  | .exhausted skipped s' => tagExhausted skipped s'
  | .access s' => raiseAccess s s'
  | .found b1 skipped s' =>
    if tagMultiByte b1 then secondTagByte s b1 skipped s' else tagDone 1 (tagBytes1 b1) b1 skipped s'

/-- TPARSE (rules R78 to R82). -/
def execTparse (s : State) : Host.Outcome State Fault Refusal := .next (tagPhase s)

/-! ### LPARSE -/

/-- A valid length (rule R85): LEN and the response are the value. -/
def lenDone (value : Word) (long : Bool) (s : State) : State :=
  respond value ((s.setLen value).setSt (St.withLenFlags s.st true false false long))

/-- An invalid length byte (rule R85). -/
def lenInvalid (s : State) : State :=
  respond 0 ((s.setLen 0).setSt (St.withLenFlags s.st false true false false))

/-- `LenExhausted(long)` (rules R83, R85). -/
def lenExhausted (long : Bool) (s : State) : State :=
  respond 0 ((s.setLen 0).setSt (St.withLenFlags s.st false false true long))

/-- "repeat n times": the value bytes of a long form, big-endian (rules R83, R84). -/
def longLength (s0 : State) : Nat → Word → State → State
  | 0, acc, s => lenDone acc true s
  | n + 1, acc, s =>
    match nextByte s with
    | .exhausted => lenExhausted true s
    | .access => raiseAccess s0 s
    | .byte d s' => longLength s0 n (accByte acc d) s'

/-- The length phase from `s` (rule R83). -/
def lengthPhase (s : State) : State :=
  match nextByte s with
  | .exhausted => lenExhausted false s
  | .access => raiseAccess s s
  | .byte l0 s' =>
    if !lenValid l0 then lenInvalid s'
    else if lenMultiByte l0 then longLength s (lenField l0).toNat 0 s'
    else lenDone (zextByte l0) false s'

/-- LPARSE (rules R83 to R86). -/
def execLparse (s : State) : Host.Outcome State Fault Refusal := .next (lengthPhase s)

end Sys2Proof.Machine
end

