-- ==== Sys2Proof/Machine/LengthInspector.lean ====
section
/-! DEFINITION. Family L, the length inspector (42_length_inspector.md): each command works on its byte operand alone
and writes nothing but the response (rules R27, R75). -/

namespace Sys2Proof.Machine

/-- LVALID (rule R71): `rsp <- bit(LenValid(B))`. -/
def execLvalid (b : Byte) (s : State) : Host.Outcome State Fault Refusal :=
  .next (respond (bitWord (lenValid b)) s)

/-- LMULTI (rule R72): `rsp <- zext_32(B[7])`, whether or not the byte is valid. -/
def execLmulti (b : Byte) (s : State) : Host.Outcome State Fault Refusal :=
  .next (respond (bitWord (lenMultiByte b)) s)

/-- LGETLEN (rule R73): `rsp <- zext_32(B[6:0])`, whether or not the byte is valid. -/
def execLgetlen (b : Byte) (s : State) : Host.Outcome State Fault Refusal :=
  .next (respond ((lenField b).setWidth 32) s)

end Sys2Proof.Machine
end

