-- ==== Sys2Proof/Machine/RegisterAccess.lean ====
section
/-! DEFINITION. Family R, register access (44_register_access.md): RD, WR and CLRERR. None reads IN or changes TAG, LEN
or the parse fields of ST (rule R93). -/

namespace Sys2Proof.Machine

/-- RD (rule R89): the register's value, or BAD_REG for selectors 5 to 15; no register changes. -/
def execRd (r : RegSel) (s : State) : Host.Outcome State Fault Refusal :=
  match readReg s r with
  | some v => .next (respond v s)
  | none => .next (raiseError .badReg s)

/-- WR (rules R90, R91): CUR or END takes any value; TAG, LEN and ST are read-only, selectors 5 to 15 undefined. -/
def execWr (r : RegSel) (value : Word) (s : State) : Host.Outcome State Fault Refusal :=
  match r with
  | .cur => .next (respond 0 (s.setCur value))
  | .endr => .next (respond 0 (s.setEnd value))
  | .tag => .next (raiseError .roWrite s)
  | .len => .next (raiseError .roWrite s)
  | .st => .next (raiseError .roWrite s)
  | .undefined _ => .next (raiseError .badReg s)

/-- CLRERR (rule R92): `ST.ERR <- 0; ST.ECODE <- 0; rsp <- 0`. -/
def execClrerr (s : State) : Host.Outcome State Fault Refusal :=
  .next (respond 0 (clearError s))

end Sys2Proof.Machine
end

