-- ==== Sys2Proof/Machine/TagInspector.lean ====
section
/-! DEFINITION. Family T, the tag inspector (41_tag_inspector.md): each command works on its byte operand alone and
writes nothing but the response (rules R27, R70). -/

namespace Sys2Proof.Machine

/-- TCLASS (rule R61): `rsp <- zext_32(B[7:6])`. -/
def execTclass (b : Byte) (s : State) : Host.Outcome State Fault Refusal :=
  .next (respond ((tagClass b).setWidth 32) s)

/-- TCONS (rule R62): `rsp <- zext_32(B[5])`. -/
def execTcons (b : Byte) (s : State) : Host.Outcome State Fault Refusal :=
  .next (respond (bitWord (tagConstructed b)) s)

/-- TPRIM (rule R63): `rsp <- zext_32(1 - B[5])`. -/
def execTprim (b : Byte) (s : State) : Host.Outcome State Fault Refusal :=
  .next (respond (bitWord (!tagConstructed b)) s)

/-- TMULTI (rule R64): `rsp <- bit(B[4:0] == 0x1F)`. -/
def execTmulti (b : Byte) (s : State) : Host.Outcome State Fault Refusal :=
  .next (respond (bitWord (tagMultiByte b)) s)

/-- TLAST (rule R65): `rsp <- bit(B[7] == 0)`. -/
def execTlast (b : Byte) (s : State) : Host.Outcome State Fault Refusal :=
  .next (respond (bitWord (tagLast b)) s)

/-- TVALID (rule R66): `rsp <- bit(TagValid(B, BN))`; BN = 0 raises BAD_BN (rule R50). -/
def execTvalid (b : Byte) (n : ByteNo) (s : State) : Host.Outcome State Fault Refusal :=
  if n = .zero then .next (raiseError .badBn s) else .next (respond (bitWord (tagValid b n)) s)

/-- TNUMF (rule R68): the tag-number bits of the byte at its position; BN = 0 raises BAD_BN. -/
def execTnumf (b : Byte) (n : ByteNo) (s : State) : Host.Outcome State Fault Refusal :=
  if n = .zero then .next (raiseError .badBn s) else .next (respond (tagNumberField b n) s)

end Sys2Proof.Machine
end

