-- ==== Sys2Proof/Machine/Dispatch.lean ====
section
/-! DEFINITION. One arm per command (rule R54): what performing it does (rule R56 from step 3 on). -/

namespace Sys2Proof.Machine

def exec (i : Instr) (s : State) : Host.Outcome State Fault Refusal :=
  match i with
  -- family T
  | .tclass b => Sys2Proof.Machine.execTclass b s
  | .tcons b => Sys2Proof.Machine.execTcons b s
  | .tprim b => Sys2Proof.Machine.execTprim b s
  | .tmulti b => Sys2Proof.Machine.execTmulti b s
  | .tlast b => Sys2Proof.Machine.execTlast b s
  | .tvalid b n => Sys2Proof.Machine.execTvalid b n s
  | .tnumf b n => Sys2Proof.Machine.execTnumf b n s
  -- family L
  | .lvalid b => Sys2Proof.Machine.execLvalid b s
  | .lmulti b => Sys2Proof.Machine.execLmulti b s
  | .lgetlen b => Sys2Proof.Machine.execLgetlen b s
  -- family P
  | .tparse => Sys2Proof.Machine.execTparse s
  | .lparse => Sys2Proof.Machine.execLparse s
  -- family R
  | .rd r => Sys2Proof.Machine.execRd r s
  | .wr r value => Sys2Proof.Machine.execWr r value s
  | .clrerr => Sys2Proof.Machine.execClrerr s

end Sys2Proof.Machine
end

