-- ==== Sys2Proof/Machine/Port.lean ====
section
/-! DEFINITION. The command port and the rest of TLVI's boundary: a command is decoded and performed, or raises its
decode error (rules R11, R56); the host's other events (rules R33, R43, R110, R111, R118). -/

namespace Sys2Proof.Machine

/-- One command, to completion (rules R11, R56): decoded, then performed; a decode error (ILLEGAL_OPCODE or
RESERVED_BITS) is raised and the command is not performed. -/
def acceptCommand (cmd data : Word) (s : State) : Host.Outcome State Fault Refusal :=
  match decode cmd data with
  | .error c => .next (raiseError c s)
  | .ok i => exec i s

/-- The host writes a byte of IN between commands (rules R33, R43). -/
def hostWrite (a : Nat) (b : Byte) (s : State) : Host.Outcome State Fault Refusal :=
  match s.mem.write a b with
  | some m => .next (s.setMem m)
  | none => .fault .hostWriteOutsideIn

/-- A command during which the host writes bytes of IN (rules R43, R118): each read at a written address is a free
byte; afterwards IN holds what was written (log 8). -/
def racingCommand (cmd data : Word) (writes : List Host.Cell) (s : State) : Host.Outcome State Fault Refusal :=
  match s.mem.writeAll writes with
  | none => .fault .hostWriteOutsideIn
  | some m =>
    match acceptCommand cmd data (s.setMem (s.mem.disturb writes)) with
    | .next t => .next (t.setMem m)
    | .fault r => .fault r
    | .refused r => .refused r

/-- One event at the boundary. -/
def portEvent (e : PortEvent) (s : State) : Host.Outcome State Fault Refusal :=
  match e with
  | .command cmd data => acceptCommand cmd data s
  | .hostWrite a b => hostWrite a b s
  | .reset => .next s.applyReset
  | .resetDuring _ _ => .next s.applyReset
  | .racing cmd data writes => racingCommand cmd data writes s
  | .overlapping _ _ _ _ => .fault .portBusy

/-- The next event is taken from the port; with none, TLVI "is idle and holds its registers" (rule R109; log 3). -/
def nextEvent (s : State) : Host.Outcome State Fault Refusal :=
  match s.port with
  | [] => .next s
  | e :: rest => portEvent e (s.setPort rest)

/-- The command an opcode-table row's bits stand for: bits 31..0 are cmd, bits 63..32 DATA, every bit above `nbits` 0. -/
def tableCommand (nbits w : Nat) : PortEvent :=
  .command (BitVec.ofNat 32 (w % 2 ^ nbits)) (BitVec.ofNat 32 (w % 2 ^ nbits / 2 ^ 32))

end Sys2Proof.Machine
end

