-- ==== Sys2Proof/Machine/Step.lean ====
section
/-! DEFINITION. One step: one event at TLVI's boundary (log 1), for a command its whole execution (rule R42). -/

namespace Sys2Proof.Machine

/-- One step of the machine. -/
def step (s : State) : Host.Outcome State Fault Refusal := nextEvent s

/-- The state in which the host presents that command next. TLVI fetches nothing (rule R45): the command port is where
its next command comes from (log 1). -/
def State.withFetchWord (s : State) (nbits w : Nat) : State :=
  s.setPort (tableCommand nbits w :: s.port)

end Sys2Proof.Machine
end

