-- ==== Sys2Proof/Machine/Assembler.lean ====
section
/-! DEFINITION. The assembler (rules R58 to R60): one command a line, its text a list of characters; what it writes is
the list of `(cmd, DATA)` pairs of the line. It is notation for programs (92_eei_decisions.md D20): no step of TLVI uses
it. Blanks around tokens, the case of hexadecimal digits and leading zeros are the model's choices (log 14). -/

namespace Sys2Proof.Asm

/-- A blank: space, tab or carriage return (log 14). -/
def isBlank (c : Char) : Bool := c == ' ' || c == '\t' || c == '\r'

/-- The text without blanks at its ends. -/
def trim (t : List Char) : List Char :=
  ((t.dropWhile isBlank).reverse.dropWhile isBlank).reverse

/-- The line without its comment: "A `;` starts a comment" (rule R58). -/
def stripComment (t : List Char) : List Char := t.takeWhile (· != ';')

/-- The text cut at its commas; "operands separated by commas" (rule R58). -/
def splitCommas : List Char → List (List Char)
  | [] => [[]]
  | c :: cs =>
    if c == ',' then [] :: splitCommas cs
    else
      match splitCommas cs with
      | [] => [[c]]
      | w :: ws => (c :: w) :: ws

/-- The value of a decimal digit. -/
def decDigit (c : Char) : Option Nat :=
  if '0' ≤ c ∧ c ≤ '9' then some (c.toNat - '0'.toNat) else none

/-- The value of a hexadecimal digit, in either case (log 14). -/
def hexDigit (c : Char) : Option Nat :=
  if '0' ≤ c ∧ c ≤ '9' then some (c.toNat - '0'.toNat)
  else if 'a' ≤ c ∧ c ≤ 'f' then some (c.toNat - 'a'.toNat + 10)
  else if 'A' ≤ c ∧ c ≤ 'F' then some (c.toNat - 'A'.toNat + 10)
  else none

/-- The digits after `acc`, most significant first, in base 10 or, when `hex`, 16. -/
def digits (hex : Bool) : Nat → List Char → Option Nat
  | acc, [] => some acc
  | acc, c :: cs =>
    match (if hex then hexDigit c else decDigit c) with
    | none => none
    | some d => digits hex (acc * (if hex then 16 else 10) + d) cs

/-- "Numbers are written `0x` hexadecimal or decimal" (rule R58). -/
def number : List Char → Option Nat
  | [] => none
  | [c] => digits false 0 [c]
  | c :: d :: cs =>
    if c == '0' && d == 'x' then (if cs.isEmpty then none else digits true 0 cs) else digits false 0 (c :: d :: cs)

/-- A number from 0 to `max`. -/
def numberUpTo (max : Nat) (t : List Char) : Option Nat :=
  match number t with
  | none => none
  | some v => if v ≤ max then some v else none

/-- The byte operand b, from 0 to 255 (rule R58). -/
def byteOperand (t : List Char) : Option Byte := (numberUpTo 255 t).map (BitVec.ofNat 8)

/-- The byte number n, from 1 to 3: "An assembler refuses n = 0" (rule R58). -/
def byteNoOperand (t : List Char) : Option ByteNo :=
  match numberUpTo 3 t with
  | some 1 => some .first
  | some 2 => some .second
  | some 3 => some .third
  | _ => none

/-- A value from 0 to 0xFFFFFFFF (rule R58). -/
def wordOperand (t : List Char) : Option Word := (numberUpTo 0xFFFFFFFF t).map (BitVec.ofNat 32)

/-- A register name, or `#5` to `#15` for an undefined selector (rule R58). -/
def regOperand (t : List Char) : Option RegSel :=
  if t = ['C', 'U', 'R'] then some .cur
  else if t = ['E', 'N', 'D'] then some .endr
  else if t = ['T', 'A', 'G'] then some .tag
  else if t = ['L', 'E', 'N'] then some .len
  else if t = ['S', 'T'] then some .st
  else
    match t with
    | '#' :: cs =>
      match digits false 0 cs with
      | some k => if cs ≠ [] ∧ 5 ≤ k ∧ k ≤ 15 then some (.undefined (Fin.ofNat 11 (k - 5))) else none
      | none => none
    | _ => none

/-- The forms of rule R58 that take a byte alone. -/
def byteForm (mk : Byte → Instr) (ops : List (List Char)) : Option (List Instr) :=
  match ops with
  | [b] => (byteOperand b).map (fun v => [mk v])
  | _ => none

/-- The forms of rule R58 that take a byte and a byte number. -/
def byteNoForm (mk : Byte → ByteNo → Instr) (ops : List (List Char)) : Option (List Instr) :=
  match ops with
  | [b, n] =>
    match byteOperand b, byteNoOperand n with
    | some v, some k => some [mk v k]
    | _, _ => none
  | _ => none

/-- The forms of rule R58 that take nothing. -/
def plainForm (i : Instr) (ops : List (List Char)) : Option (List Instr) :=
  match ops with
  | [] => some [i]
  | _ => none

/-- The pseudo-instructions of rule R59 that take a byte. -/
def pseudoByteForm (mk : Byte → Pseudo) (ops : List (List Char)) : Option (List Instr) :=
  match ops with
  | [b] => (byteOperand b).map (fun v => (mk v).expand)
  | _ => none

/-- RD reg (rule R58). -/
def rdForm (ops : List (List Char)) : Option (List Instr) :=
  match ops with
  | [r] => (regOperand r).map (fun k => [.rd k])
  | _ => none

/-- WR reg, value (rule R58). -/
def wrForm (ops : List (List Char)) : Option (List Instr) :=
  match ops with
  | [r, v] =>
    match regOperand r, wordOperand v with
    | some k, some w => some [.wr k w]
    | _, _ => none
  | _ => none

/-- SEEK a (rule R59). -/
def seekForm (ops : List (List Char)) : Option (List Instr) :=
  match ops with
  | [a] => (wordOperand a).map (fun w => (Pseudo.seek w).expand)
  | _ => none

/-- RANGE a, e (rule R59). -/
def rangeForm (ops : List (List Char)) : Option (List Instr) :=
  match ops with
  | [a, e] =>
    match wordOperand a, wordOperand e with
    | some v, some w => some (Pseudo.range v w).expand
    | _, _ => none
  | _ => none

/-- The commands of one mnemonic with its operands (rules R58, R59); none when the assembler refuses the line. -/
def form (m : List Char) (ops : List (List Char)) : Option (List Instr) :=
  if m = ['T', 'C', 'L', 'A', 'S', 'S'] then byteForm .tclass ops
  else if m = ['T', 'C', 'O', 'N', 'S'] then byteForm .tcons ops
  else if m = ['T', 'P', 'R', 'I', 'M'] then byteForm .tprim ops
  else if m = ['T', 'M', 'U', 'L', 'T', 'I'] then byteForm .tmulti ops
  else if m = ['T', 'L', 'A', 'S', 'T'] then byteForm .tlast ops
  else if m = ['L', 'V', 'A', 'L', 'I', 'D'] then byteForm .lvalid ops
  else if m = ['L', 'M', 'U', 'L', 'T', 'I'] then byteForm .lmulti ops
  else if m = ['L', 'G', 'E', 'T', 'L', 'E', 'N'] then byteForm .lgetlen ops
  else if m = ['T', 'V', 'A', 'L', 'I', 'D'] then byteNoForm .tvalid ops
  else if m = ['T', 'N', 'U', 'M', 'F'] then byteNoForm .tnumf ops
  else if m = ['T', 'P', 'A', 'R', 'S', 'E'] then plainForm .tparse ops
  else if m = ['L', 'P', 'A', 'R', 'S', 'E'] then plainForm .lparse ops
  else if m = ['C', 'L', 'R', 'E', 'R', 'R'] then plainForm .clrerr ops
  else if m = ['R', 'D'] then rdForm ops
  else if m = ['W', 'R'] then wrForm ops
  else if m = ['T', 'V', 'A', 'L', 'I', 'D', '1'] then pseudoByteForm .tvalid1 ops
  else if m = ['T', 'V', 'A', 'L', 'I', 'D', '2'] then pseudoByteForm .tvalid2 ops
  else if m = ['T', 'V', 'A', 'L', 'I', 'D', '3'] then pseudoByteForm .tvalid3 ops
  else if m = ['S', 'E', 'E', 'K'] then seekForm ops
  else if m = ['R', 'A', 'N', 'G', 'E'] then rangeForm ops
  else none

/-- The commands one line stands for (rule R58); a line with no command stands for none. -/
def parseLine (line : List Char) : Option (List Instr) :=
  match trim (stripComment line) with
  | [] => some []
  | c :: cs =>
    let text := c :: cs
    let rest := trim (text.dropWhile (fun x => !isBlank x))
    form (text.takeWhile (fun x => !isBlank x)) (if rest.isEmpty then [] else (splitCommas rest).map trim)

/-- What the assembler writes for one line: each command encoded as rule R60 says, in order. -/
def assembleLine (line : List Char) : Option (List (Word × Word)) :=
  (parseLine line).map (fun is => is.map encode)

/-- A program, line by line; refused when the assembler refuses a line. -/
def assemble : List (List Char) → Option (List (Word × Word))
  | [] => some []
  | line :: lines =>
    match assembleLine line, assemble lines with
    | some p, some q => some (p ++ q)
    | _, _ => none

end Sys2Proof.Asm
end

