-- ==== Sys2Proof/Machine/HostProtocol.lean ====
section
/-! DEFINITION. The host's part: the text of a tag (rule R20) and the source's Decoder over TLVI commands (rules R121 to
R124). It is not behaviour of TLVI (rule R4): no step of the machine uses it. The node's name comes from a table outside
the spec (rule R4) and is left out (log 13). -/

namespace Sys2Proof.Machine

/-- A digit below 16 as a hexadecimal character, uppercase or lowercase. -/
def hexChar (upper : Bool) (d : Nat) : Char :=
  if d < 10 then Char.ofNat (48 + d) else Char.ofNat ((if upper then 55 else 87) + d)

/-- Bytes as hexadecimal text, two digits a byte. -/
def hexText (upper : Bool) : List Byte → List Char
  | [] => []
  | b :: bs => hexChar upper (b.toNat / 16) :: hexChar upper (b.toNat % 16) :: hexText upper bs

/-- The TAGLEN bytes of TBYTES, most significant first (rules R19, R20). -/
def tagByteList (tag : Word) : List Byte :=
  match (tagLenField tag).toNat with
  | 1 => [tag.extractLsb' 0 8]
  | 2 => [tag.extractLsb' 8 8, tag.extractLsb' 0 8]
  | 3 => [tag.extractLsb' 16 8, tag.extractLsb' 8 8, tag.extractLsb' 0 8]
  | _ => []

/-- The canonical textual form: uppercase hex, 2, 4 or 6 characters; "A TAG with TAGLEN = 0 has no textual form"
(rule R20). -/
def tagText (tag : Word) : Option (List Char) :=
  match tagByteList tag with
  | [] => none
  | b :: bs => some (hexText true (b :: bs))

/-- The ordered map from tag string to node (rule R121), in order: a leaf holds a primitive value's lowercase hex, a
node a constructed value's own map. -/
inductive Tree
  | empty
  | leaf (tag : List Char) (length : Nat) (value : List Char) (rest : Tree)
  | node (tag : List Char) (length : Nat) (sub : Tree) (rest : Tree)
  deriving DecidableEq, Repr

/-- `tree[tag] <- leaf`: overwrite on duplicate (rules R121, R123); the entry keeps its place in the map (log 13). -/
def Tree.putLeaf (tag : List Char) (length : Nat) (value : List Char) : Tree → Tree
  | .empty => .leaf tag length value .empty
  | .leaf t l v rest =>
    if t = tag then .leaf tag length value rest else .leaf t l v (Tree.putLeaf tag length value rest)
  | .node t l sub rest =>
    if t = tag then .leaf tag length value rest else .node t l sub (Tree.putLeaf tag length value rest)

/-- `tree[tag] <- node`: overwrite on duplicate (rules R121, R123). -/
def Tree.putNode (tag : List Char) (length : Nat) (child : Tree) : Tree → Tree
  | .empty => .node tag length child .empty
  | .leaf t l v rest =>
    if t = tag then .node tag length child rest else .leaf t l v (Tree.putNode tag length child rest)
  | .node t l sub rest =>
    if t = tag then .node tag length child rest else .node t l sub (Tree.putNode tag length child rest)

/-- The host issues a command and waits for its response; a command never stops the machine. -/
def issue (i : Instr) (s : State) : State :=
  match acceptCommand (encode i).1 (encode i).2 s with
  | .next t => t
  | .fault _ => s
  | .refused _ => s

/-- `IN[a .. a + n - 1]`, which the host owns and reads itself (rules R33, R121): the bytes IN holds. DESIGN CHOICE: what
the host's own read gives where the platform breaks duty 2 of rule R117 (log 19) and at or above INSIZE (log 20) the spec
does not say; the model takes the stored byte, and `Config.unlistedByte` where IN has none. -/
def inputBytes (m : Memory) : Nat → Nat → List Byte
  | _, 0 => []
  | a, n + 1 => m.byteAt a :: inputBytes m (a + 1) n

/-- The loop of `ParseLevel` over a level that ends at `e` (rule R121). `fuel` bounds its turns and its depth; where no
command errs, each turn that goes on consumes at least two bytes of the level (log 17). DESIGN CHOICE (log 20): a command
that answers `rerr = 1` (ACCESS, `e` above INSIZE) is not looked at; as rule R121 is written, only TOK and LOK are tested,
and after an error they, TAG and LEN are those of the command before. -/
def parseLoop : Nat → Nat → Tree → State → Tree × State
  | 0, _, tree, s => (tree, s)
  | fuel + 1, e, tree, s =>
    let s1 := issue .tparse s
    if St.tok s1.st = false then (tree, s1)
    else
      let s2 := issue .lparse s1
      if St.lok s2.st = false then (tree, s2)
      else
        let tag := (tagText s1.tag).getD []
        let len := s2.len.toNat
        let p := s2.cur.toNat
        if e ≤ p then (tree, s2)
        else
          let avail := min len (e - p)
          if St.cons s1.st then
            let inner := parseLoop fuel (p + avail) .empty
              (issue (.wr .endr (BitVec.ofNat 32 (p + avail))) (issue (.wr .cur (BitVec.ofNat 32 p)) s2))
            let s3 := issue (.wr .endr (BitVec.ofNat 32 e)) inner.2
            parseLoop fuel e (Tree.putNode tag len inner.1 tree)
              (issue (.wr .cur (BitVec.ofNat 32 (min (p + len) e))) s3)
          else
            parseLoop fuel e (Tree.putLeaf tag len (hexText false (inputBytes s2.mem p avail)) tree)
              (issue (.wr .cur (BitVec.ofNat 32 (min (p + len) e))) s2)

/-- `ParseLevel(a, e)` (rule R121): `WR CUR, a; WR END, e`, then the loop. -/
def parseLevel (a e : Nat) (s : State) : Tree × State :=
  parseLoop (e - a + 1) e .empty
    (issue (.wr .endr (BitVec.ofNat 32 e)) (issue (.wr .cur (BitVec.ofNat 32 a)) s))

end Sys2Proof.Machine
end

