-- ==== Sys2Proof/Safety.lean ====
section
/-! DEFINITION. The terms claims are stated in: what a command leaves when it succeeds or errs, written from the rules
and not from the meanings; the bytes a parse command would read; the tag and length fields as functions of a list of
bytes; the host's duties (rule R117); and the invariants of the machine. -/

namespace Sys2Proof.Machine

/-! ### What a command leaves -/

/-- A success that changes nothing but the response (rules R11, R57). -/
def answered (v : Nat) (s : State) : State := { s with resp := some { rsp := BitVec.ofNat 32 v, rerr := false } }

/-- Rule R97 with code `c`: ERR (bit 8) 1, ECODE (bits 15:12) `c` if ERR was 0, response `(0, 1)`, nothing else. -/
def afterError (c : Nat) (s : State) : State :=
  { s with
    st := if s.st.getLsbD 8 then s.st else (s.st &&& 0xFFFF0EFF#32) ||| BitVec.ofNat 32 (0x100 + 4096 * c)
    resp := some { rsp := 0, rerr := true } }

/-- 1 when the condition holds, 0 otherwise (rule R9). -/
def natOf (c : Bool) : Nat := if c then 1 else 0

/-- ST with TPARSE's fields EXH (1), SKIP (2), TOK (4) and CONS (8) written (rules R22, R23). -/
def tagStatus (st : Word) (tok exh cons skip : Bool) : Word :=
  (st &&& 0xFFFFFFF0#32) ||| BitVec.ofNat 32 (natOf exh + 2 * natOf skip + 4 * natOf tok + 8 * natOf cons)

/-- ST with LPARSE's fields EXH (1), LOK (0x10), LINV (0x20) and LLONG (0x40) written (rules R22, R23). -/
def lenStatus (st : Word) (lok linv exh llong : Bool) : Word :=
  (st &&& 0xFFFFFF8E#32) |||
    BitVec.ofNat 32 (natOf exh + 0x10 * natOf lok + 0x20 * natOf linv + 0x40 * natOf llong)

/-- The decode error of a command word (codes 1 to 5 of rule R95), the first in the order of rule R96, from the opcode
map of rule R54 and the table of rule R53. -/
def decodeErrorCode (cmd : Word) : Option Nat :=
  let op := cmd.toNat / 2 ^ 24
  let bn := cmd.toNat / 2 ^ 8 % 4
  let rs := cmd.toNat / 2 ^ 16 % 16
  if op ∈ [0x01, 0x02, 0x03, 0x04, 0x05, 0x11, 0x12, 0x13] then
    if cmd.toNat / 2 ^ 8 % 2 ^ 16 ≠ 0 then some 2 else none
  else if op ∈ [0x06, 0x07] then
    if cmd.toNat / 2 ^ 10 % 2 ^ 14 ≠ 0 then some 2 else if bn = 0 then some 3 else none
  else if op ∈ [0x21, 0x22, 0x33] then
    if cmd.toNat % 2 ^ 24 ≠ 0 then some 2 else none
  else if op ∈ [0x31, 0x32] then
    if cmd.toNat / 2 ^ 20 % 2 ^ 4 ≠ 0 ∨ cmd.toNat % 2 ^ 16 ≠ 0 then some 2
    else if 5 ≤ rs then some 4
    else if op = 0x32 ∧ 2 ≤ rs then some 5
    else none
  else some 1

/-- The number a BN operand stands for (rule R50). -/
def byteNumber : ByteNo → Nat
  | .zero => 0
  | .first => 1
  | .second => 2
  | .third => 3

/-- The number of a selector (rules R15, R51). -/
def selectorNumber : RegSel → Nat
  | .cur => 0
  | .endr => 1
  | .tag => 2
  | .len => 3
  | .st => 4
  | .undefined k => 5 + k.val

/-- The commands of families T and L, the inspectors (rules R61 to R75). -/
def isInspector : Instr → Bool
  | .tclass _ => true
  | .tcons _ => true
  | .tprim _ => true
  | .tmulti _ => true
  | .tlast _ => true
  | .tvalid _ _ => true
  | .tnumf _ _ => true
  | .lvalid _ => true
  | .lmulti _ => true
  | .lgetlen _ => true
  | .tparse => false
  | .lparse => false
  | .rd _ => false
  | .wr _ _ => false
  | .clrerr => false

/-- The parse commands, the only ones that read IN (rule R31). -/
def isParse (i : Instr) : Prop := i = .tparse ∨ i = .lparse

/-- The command answered with an error. -/
def Erred (s : State) : Prop := ∃ r, s.resp = some r ∧ r.rerr = true

/-! ### The bytes of the range -/

/-- How many of the `n` addresses from CUR on are erratic, so how many free bytes `n` reads draw (log 6). -/
def erraticReads (s : State) (n : Nat) : Nat :=
  (List.range n).countP (fun k => decide (s.cur.toNat + k ∈ s.mem.erratic))

/-- What the read at offset `k` from CUR gives a parse command that starts in `s` (rules R35, R118). -/
def rangeByte (s : State) (k : Nat) : Byte :=
  if s.cur.toNat + k ∈ s.mem.erratic then Config.freeByte (s.draws + erraticReads s k)
  else s.mem.byteAt (s.cur.toNat + k)

/-- The bytes a parse command can read: those of `[CUR, END)` that lie inside IN (rules R35, R76). -/
def rangeBytes (s : State) : List Byte :=
  (List.range (min s.endr.toNat s.mem.size - s.cur.toNat)).map (rangeByte s)

/-! ### The fields as functions of a list of bytes -/

/-- The tag field at the head of a list whose first byte is not 0x00 (rule R79): none when the list ends first. -/
def tagField : List Byte → Option (List Byte)
  | [] => none
  | b1 :: bs =>
    if b1.toNat % 32 ≠ 31 then some [b1]
    else
      match bs with
      | [] => none
      | [b2] => if b2.toNat < 128 then some [b1, b2] else none
      | b2 :: b3 :: _ => if b2.toNat < 128 then some [b1, b2] else some [b1, b2, b3]

/-- Bytes as a number, first byte most significant (rules R19, R36, R84). -/
def bigEndian (bs : List Byte) : Nat := bs.foldl (fun acc b => acc * 256 + b.toNat) 0

/-- How a length field at the head of a list ends (rule R85). -/
inductive LenField
  /-- The list ends first; whether the marker had been read. -/
  | unfinished (long : Bool)
  /-- The first byte is 0x80 or above 0x84. -/
  | invalid
  /-- The value, its form, and the bytes of the field. -/
  | value (v : Nat) (long : Bool) (used : Nat)
  deriving DecidableEq, Repr

/-- The length field at the head of a list (rules R71, R83, R84). -/
def lengthField : List Byte → LenField
  | [] => .unfinished false
  | l0 :: bs =>
    if l0.toNat < 0x80 then .value l0.toNat false 1
    else if l0.toNat = 0x80 ∨ 0x84 < l0.toNat then .invalid
    else if bs.length < l0.toNat - 0x80 then .unfinished true
    else .value (bigEndian (bs.take (l0.toNat - 0x80))) true (l0.toNat - 0x80 + 1)

/-- The bytes IN holds at the addresses `[a, e)`. -/
def bytesBetween (m : Memory) (a e : Nat) : List Byte := (List.range (e - a)).map (fun k => m.byteAt (a + k))

/-- The list begins with one element up to its value: `skip` bytes 0x00, the whole tag field `tb`, and the whole length
field `lb` of value `v`; then comes `rest` (rules R79, R81, R84). -/
def BeginsWithElement (bytes : List Byte) (skip : Nat) (tb lb : List Byte) (v : Nat) (rest : List Byte) : Prop :=
  bytes = List.replicate skip 0 ++ (tb ++ (lb ++ rest)) ∧ tb.headD 0 ≠ 0 ∧ tagField tb = some tb ∧
    ∃ long, lengthField lb = .value v long lb.length

/-- ACCESS from a parse command that read every byte of the range inside IN: the error record and the response only
(rules R77, R97); the free bytes stay drawn (log 11). -/
def accessState (s : State) : State :=
  afterError 6 { s with draws := s.draws + erraticReads s (rangeBytes s).length }

/-- CUR when a parse command exhausts the range: END, or unchanged if it was above END (rules R82, R85). -/
def exhaustedCur (s : State) : Word := if s.cur ≤ s.endr then s.endr else s.cur

/-- TPARSE read off the list of bytes in range: skip the leading 0x00 bytes, take the tag field (rules R78 to R82). -/
def tparseOfRange (s : State) : State :=
  let bytes := rangeBytes s
  let skip := (bytes.takeWhile (· == 0)).length
  match tagField (bytes.dropWhile (· == 0)) with
  | some tb =>
    let tag := BitVec.ofNat 32 (tb.length * 2 ^ 24 + bigEndian tb)
    { s with
      cur := s.cur + BitVec.ofNat 32 (skip + tb.length)
      tag := tag
      st := tagStatus s.st true false ((tb.headD 0).toNat / 32 % 2 == 1) (decide (0 < skip))
      resp := some { rsp := tag, rerr := false }
      draws := s.draws + erraticReads s (skip + tb.length) }
  | none =>
    if bytes.length < s.rangeLen then accessState s
    else
      { s with
        cur := exhaustedCur s
        tag := 0
        st := tagStatus s.st false true false (decide (0 < skip))
        resp := some { rsp := 0, rerr := false }
        draws := s.draws + erraticReads s bytes.length }

/-- LPARSE read off the list of bytes in range (rules R83 to R86). -/
def lparseOfRange (s : State) : State :=
  let bytes := rangeBytes s
  match lengthField bytes with
  | .value v long used =>
    { s with
      cur := s.cur + BitVec.ofNat 32 used
      len := BitVec.ofNat 32 v
      st := lenStatus s.st true false false long
      resp := some { rsp := BitVec.ofNat 32 v, rerr := false }
      draws := s.draws + erraticReads s used }
  | .invalid =>
    { s with
      cur := s.cur + 1
      len := 0
      st := lenStatus s.st false true false false
      resp := some { rsp := 0, rerr := false }
      draws := s.draws + erraticReads s 1 }
  | .unfinished long =>
    if bytes.length < s.rangeLen then accessState s
    else
      { s with
        cur := exhaustedCur s
        len := 0
        st := lenStatus s.st false false true long
        resp := some { rsp := 0, rerr := false }
        draws := s.draws + erraticReads s bytes.length }

/-! ### The host's duties (rule R117) -/

/-- Duty 1: END is at most INSIZE. -/
def EndInsideIn (s : State) : Prop := s.endr.toNat ≤ s.mem.size

/-- Duty 2 for the current range: IN is plain memory there. -/
def PlainRange (s : State) : Prop := ∀ a, s.cur.toNat ≤ a → a < s.endr.toNat → a ∉ s.mem.erratic

/-- No reported error: the latest response has `rerr = 0`. A safe run is one whose every step answers a next state
without an error; no command faults or refuses, so this is what a claim of safety asks. -/
def NoCommandError (s : State) : Prop := ∀ r, s.resp = some r → r.rerr = false

/-! ### The invariants -/

/-- Reserved bits of ST (7, 11:9, 31:16) and of TAG (31:26) are 0 (rule R26). -/
def ReservedZero (s : State) : Prop := s.st &&& 0xFFFF0E80#32 = 0 ∧ s.tag &&& 0xFC000000#32 = 0

/-- ERR and ECODE agree (rules R92, R95, R97): no code without an error, a code of rule R95 with one. -/
def ErrorRecordOk (s : State) : Prop :=
  (St.err s.st = false → (St.ecode s.st).toNat = 0) ∧
  (St.err s.st = true → 1 ≤ (St.ecode s.st).toNat ∧ (St.ecode s.st).toNat ≤ 6)

/-- TAG, TOK and CONS agree (rules R19, R22, R79, R80, R82): with TOK, TAG holds a tag field whose first byte is not
0x00 and CONS is that byte's bit 5; without, TAG and CONS are 0. -/
def TagRecordOk (s : State) : Prop :=
  (St.tok s.st = false → s.tag = 0 ∧ St.cons s.st = false) ∧
  (St.tok s.st = true → ∃ b1 bs tb, b1 ≠ (0 : Byte) ∧ tagField (b1 :: bs) = some tb ∧
    s.tag.toNat = tb.length * 2 ^ 24 + bigEndian tb ∧ St.cons s.st = b1.getLsbD 5)

/-- LEN, LOK, LINV and LLONG agree (rules R21, R84, R85). -/
def LenRecordOk (s : State) : Prop :=
  (St.lok s.st = false → s.len = 0) ∧
  ¬ (St.lok s.st = true ∧ St.linv s.st = true) ∧
  (St.linv s.st = true → St.llong s.st = false) ∧
  (St.lok s.st = true → St.llong s.st = false → s.len.toNat ≤ 127)

/-- The machine's invariant: IN in canonical form, and the four records. -/
def Inv (s : State) : Prop :=
  s.mem.wf ∧ ReservedZero s ∧ ErrorRecordOk s ∧ TagRecordOk s ∧ LenRecordOk s

end Sys2Proof.Machine
end

