-- ==== Sys2Proof/Certificates/Slice0/Obligations.lean ====
section
/-! DEFINITION. What is claimed of TLVI, one definition a claim; the terms are those of Sys2Proof/Safety.lean. A claim
whose conclusion equates the whole next state states its frame: every register, flag and byte of IN it does not name is
unchanged. -/

open Sys2Proof Sys2Proof.Machine

/-! ### Encoding -/

/-- Rules R48, R53, R54, R60: decoding what the assembler writes for a command gives that command, for every operand an
encoding admits (BN = 0 and undefined selectors included). -/
def Obligations.DecodeOfEncodeIsTheCommand : Prop :=
  ∀ i : Instr, decode (encode i).1 (encode i).2 = .ok i

/-- Rules R52 to R54: a pair that decodes is the pair its command encodes to, but for the DATA a command other than WR
ignores; so no two commands share a word and no bit of a legal word is dropped. -/
def Obligations.DecodedPairEncodesBack : Prop :=
  ∀ (cmd data : Word) (i : Instr), decode cmd data = .ok i →
    encode i = (cmd, if cmd.toNat / 2 ^ 24 = 0x32 then data else 0)

/-- Rules R54, R60 and the words of 95_test_vectors.md section 2, one or more of each family. -/
def Obligations.SpecWordsDecodeToTheirCommands : Prop :=
  decode 0x0100006F 0 = .ok (.tclass 0x6F) ∧
  decode 0x0600021E 0 = .ok (.tvalid 0x1E .second) ∧
  decode 0x07000281 0 = .ok (.tnumf 0x81 .second) ∧
  decode 0x11000084 0 = .ok (.lvalid 0x84) ∧
  decode 0x1300007F 0 = .ok (.lgetlen 0x7F) ∧
  decode 0x21000000 0 = .ok .tparse ∧
  decode 0x22000000 0 = .ok .lparse ∧
  decode 0x31040000 0 = .ok (.rd .st) ∧
  decode 0x32010000 5 = .ok (.wr .endr 5) ∧
  decode 0x33000000 0 = .ok .clrerr

/-- Rule R55: a command with an OP that rule R54 does not list raises ILLEGAL_OPCODE (code 1), whatever its other bits. -/
def Obligations.UnlistedOpcodeRaisesIllegalOpcode : Prop :=
  ∀ (cmd data : Word) (s : State),
    cmd.toNat / 2 ^ 24 ∉ [0x01, 0x02, 0x03, 0x04, 0x05, 0x06, 0x07, 0x11, 0x12, 0x13, 0x21, 0x22, 0x31, 0x32, 0x33] →
    acceptCommand cmd data s = .next (afterError 1 s)

/-- Rule R53: a command with a must-be-zero bit set raises RESERVED_BITS (code 2) and is not performed. -/
def Obligations.ReservedBitSetIsNotPerformed : Prop :=
  ∀ (cmd data : Word) (s : State),
    (cmd.toNat / 2 ^ 24 ∈ [0x01, 0x02, 0x03, 0x04, 0x05, 0x11, 0x12, 0x13] ∧ cmd.toNat / 2 ^ 8 % 2 ^ 16 ≠ 0) ∨
    (cmd.toNat / 2 ^ 24 ∈ [0x06, 0x07] ∧ cmd.toNat / 2 ^ 10 % 2 ^ 14 ≠ 0) ∨
    (cmd.toNat / 2 ^ 24 ∈ [0x21, 0x22, 0x33] ∧ cmd.toNat % 2 ^ 24 ≠ 0) ∨
    (cmd.toNat / 2 ^ 24 ∈ [0x31, 0x32] ∧ (cmd.toNat / 2 ^ 20 % 2 ^ 4 ≠ 0 ∨ cmd.toNat % 2 ^ 16 ≠ 0)) →
    acceptCommand cmd data s = .next (afterError 2 s)

/-- Rule R96: the error a command raises is the first of its causes in the order ILLEGAL_OPCODE, RESERVED_BITS, BAD_BN or
BAD_REG, RO_WRITE; one with none of these errs only with ACCESS, and only as a parse command. -/
def Obligations.FirstCauseDecidesTheError : Prop :=
  ∀ (cmd data : Word) (s : State),
    (∀ c, decodeErrorCode cmd = some c → acceptCommand cmd data s = .next (afterError c s)) ∧
    (decodeErrorCode cmd = none → ∃ t, acceptCommand cmd data s = .next t ∧
      (Erred t → (cmd = 0x21000000 ∨ cmd = 0x22000000) ∧ t = afterError 6 { s with draws := t.draws }))

/-- Rule R52: DATA is the value WR writes; every other command answers the same whatever DATA is. -/
def Obligations.DataIsUsedOnlyByWr : Prop :=
  (∀ (cmd data1 data2 : Word) (s : State), cmd.toNat / 2 ^ 24 ≠ 0x32 →
    acceptCommand cmd data1 s = acceptCommand cmd data2 s) ∧
  (∀ (data : Word) (s : State),
    acceptCommand 0x32000000 data s = .next (answered 0 { s with cur := data }) ∧
    acceptCommand 0x32010000 data s = .next (answered 0 { s with endr := data }))

/-! ### The machine's steps -/

/-- Rules R11, R56: when the next input is a command that decodes to `i`, the step is `exec i` with that input taken. -/
def Obligations.StepPerformsTheDecodedCommand : Prop :=
  ∀ (s : State) (cmd data : Word) (rest : List PortEvent) (i : Instr),
    s.port = .command cmd data :: rest → decode cmd data = .ok i → step s = exec i { s with port := rest }

/-- Rule R109; that the model shows idleness as a step that changes nothing is its own choice (log 3). -/
def Obligations.IdleTlviHoldsItsState : Prop :=
  ∀ s : State, s.port = [] → step s = .next s

/-- Rules R110, R111: reset, while idle or during any command, leaves every register 0 and IN as it was, and gives no
response. -/
def Obligations.ResetClearsEveryRegister : Prop :=
  ∀ (s : State) (rest : List PortEvent) (e : PortEvent), s.port = e :: rest →
    (e = .reset ∨ ∃ cmd data, e = .resetDuring cmd data) →
    ∃ t, step s = .next t ∧ t.cur = 0 ∧ t.endr = 0 ∧ t.tag = 0 ∧ t.len = 0 ∧ t.st = 0 ∧ t.resp = none ∧
      t.mem = s.mem

/-- Rule R30: the values after reset. -/
def Obligations.RegistersAreZeroAfterReset : Prop :=
  State.reset.cur = 0x00000000 ∧ State.reset.endr = 0x00000000 ∧ State.reset.tag = 0x00000000 ∧
  State.reset.len = 0x00000000 ∧ State.reset.st = 0x00000000

/-- Rules R33, R43: what the host writes to IN between two commands is what every later read there gives (where duty 2 of
rule R117 is kept), every other byte, read and register is unchanged, and IN keeps its canonical form. That a host write is
one step is the model's choice (log 1). -/
def Obligations.HostWriteIsSeenByLaterReads : Prop :=
  ∀ (s : State) (rest : List PortEvent) (a : Nat) (b : Byte),
    s.mem.wf → s.port = .hostWrite a b :: rest → a < s.mem.size →
    ∃ m : Memory, step s = .next { s with mem := m, port := rest } ∧ m.byteAt a = b ∧
      (a ∉ s.mem.erratic → ∀ d, m.read a d = some (b, d)) ∧
      (∀ x, x ≠ a → m.byteAt x = s.mem.byteAt x ∧ ∀ d, m.read x d = s.mem.read x d) ∧
      m.size = s.mem.size ∧ m.erratic = s.mem.erratic ∧ m.wf

/-- Rules R43, R118 (93_implementation_defined.md U5; log 6, 8): a command during which the host writes IN runs with each
read at a written address a free byte and every other read as before; afterwards IN holds the last byte written at each
address. -/
def Obligations.RacingReadsAreFreeBytes : Prop :=
  ∀ (s : State) (rest : List PortEvent) (cmd data : Word) (writes : List Host.Cell),
    s.mem.wf → s.port = .racing cmd data writes :: rest → (∀ c ∈ writes, c.1 < s.mem.size) →
    (∀ c ∈ writes, ∀ d, (s.mem.disturb writes).read c.1 d = some (Config.freeByte d, d + 1)) ∧
    (∀ a, (∀ c ∈ writes, c.1 ≠ a) → ∀ d, (s.mem.disturb writes).read a d = s.mem.read a d) ∧
    ∃ (u : State) (m : Memory), acceptCommand cmd data { s with port := rest, mem := s.mem.disturb writes } = .next u ∧
      step s = .next { u with mem := m } ∧ m.wf ∧ m.size = s.mem.size ∧ m.erratic = s.mem.erratic ∧
      ∀ x, m.byteAt x = ((writes.reverse.find? (fun c => c.1 == x)).map Prod.snd).getD (s.mem.byteAt x)

/-- Rule R118, 93_implementation_defined.md U12: the port has no step for a second command presented before the first has
responded (a stop of the model's choosing, log 10). -/
def Obligations.OverlappingCommandsHaveNoStep : Prop :=
  ∀ (s : State) (rest : List PortEvent) (cmd data cmd2 data2 : Word),
    s.port = .overlapping cmd data cmd2 data2 :: rest → step s = .fault .portBusy

/-- Rule R11: a command has no outcome but success or error, both next states; the machine stops only where the host
presents a second command early or writes a byte IN does not have (log 9, 10). -/
def Obligations.StepStopsOnlyOnAHostBreach : Prop :=
  ∀ s : State, (∀ r, step s ≠ .refused r) ∧
    ∀ f, step s = .fault f →
      (∃ cmd data cmd2 data2 rest, s.port = .overlapping cmd data cmd2 data2 :: rest) ∨
      (∃ a b rest, s.port = .hostWrite a b :: rest ∧ s.mem.size ≤ a) ∨
      (∃ cmd data writes rest, s.port = .racing cmd data writes :: rest ∧ ∃ c ∈ writes, s.mem.size ≤ c.1)

/-! ### Family T -/

/-- Rule R61: TCLASS b answers bits 7-6 of b and changes nothing else. -/
def Obligations.TclassAnswersTheClass : Prop :=
  ∀ (b : Byte) (data : Word) (s : State),
    decode (BitVec.ofNat 32 (0x01000000 + b.toNat)) data = .ok (.tclass b) ∧
    exec (.tclass b) s = .next (answered (b.toNat / 64) s)

/-- Rule R62: TCONS b answers bit 5 of b and changes nothing else. -/
def Obligations.TconsAnswersBitFive : Prop :=
  ∀ (b : Byte) (data : Word) (s : State),
    decode (BitVec.ofNat 32 (0x02000000 + b.toNat)) data = .ok (.tcons b) ∧
    exec (.tcons b) s = .next (answered (b.toNat / 32 % 2) s)

/-- Rule R63: TPRIM b answers 1 minus bit 5 of b and changes nothing else. -/
def Obligations.TprimAnswersTheComplement : Prop :=
  ∀ (b : Byte) (data : Word) (s : State),
    decode (BitVec.ofNat 32 (0x03000000 + b.toNat)) data = .ok (.tprim b) ∧
    exec (.tprim b) s = .next (answered (1 - b.toNat / 32 % 2) s)

/-- Rule R64: TMULTI b answers whether the low five bits of b are 0x1F and changes nothing else. -/
def Obligations.TmultiAnswersTheMultiByteMarker : Prop :=
  ∀ (b : Byte) (data : Word) (s : State),
    decode (BitVec.ofNat 32 (0x04000000 + b.toNat)) data = .ok (.tmulti b) ∧
    exec (.tmulti b) s = .next (answered (if b.toNat % 32 = 0x1F then 1 else 0) s)

/-- Rule R65: TLAST b answers whether bit 7 of b is 0 and changes nothing else. -/
def Obligations.TlastAnswersBitSevenClear : Prop :=
  ∀ (b : Byte) (data : Word) (s : State),
    decode (BitVec.ofNat 32 (0x05000000 + b.toNat)) data = .ok (.tlast b) ∧
    exec (.tlast b) s = .next (answered (if b.toNat < 0x80 then 1 else 0) s)

/-- Rule R66: TVALID b, n answers whether b is valid at position n, by exact equalities; n = 0 raises BAD_BN (code 3). -/
def Obligations.TvalidAnswersPositionValidity : Prop :=
  ∀ (b : Byte) (n : ByteNo) (data : Word) (s : State),
    decode (BitVec.ofNat 32 (0x06000000 + 256 * byteNumber n + b.toNat)) data = .ok (.tvalid b n) ∧
    exec (.tvalid b n) s = .next
      (if byteNumber n = 0 then afterError 3 s
       else if (byteNumber n = 1 ∨ byteNumber n = 2) ∧ b.toNat = 0x00 then answered 0 s
       else if byteNumber n = 2 ∧ (b.toNat = 0x1E ∨ b.toNat = 0x80) then answered 0 s
       else answered 1 s)

/-- Rule R68: TNUMF b, n answers bits 4-0 of b at position 1 and bits 6-0 at positions 2 and 3; n = 0 raises BAD_BN
(code 3). -/
def Obligations.TnumfAnswersTheNumberBits : Prop :=
  ∀ (b : Byte) (n : ByteNo) (data : Word) (s : State),
    decode (BitVec.ofNat 32 (0x07000000 + 256 * byteNumber n + b.toNat)) data = .ok (.tnumf b n) ∧
    exec (.tnumf b n) s = .next
      (if byteNumber n = 0 then afterError 3 s
       else if byteNumber n = 1 then answered (b.toNat % 32) s
       else answered (b.toNat % 128) s)

/-! ### Family L -/

/-- Rule R71: LVALID b answers whether b is neither 0x80 nor above 0x84 and changes nothing else. -/
def Obligations.LvalidAnswersLengthByteValidity : Prop :=
  ∀ (b : Byte) (data : Word) (s : State),
    decode (BitVec.ofNat 32 (0x11000000 + b.toNat)) data = .ok (.lvalid b) ∧
    exec (.lvalid b) s = .next (answered (if b.toNat ≠ 0x80 ∧ b.toNat ≤ 0x84 then 1 else 0) s)

/-- Rule R72: LMULTI b answers bit 7 of b, valid or not, and changes nothing else. -/
def Obligations.LmultiAnswersBitSeven : Prop :=
  ∀ (b : Byte) (data : Word) (s : State),
    decode (BitVec.ofNat 32 (0x12000000 + b.toNat)) data = .ok (.lmulti b) ∧
    exec (.lmulti b) s = .next (answered (b.toNat / 128) s)

/-- Rule R73: LGETLEN b answers bits 6-0 of b, valid or not, and changes nothing else. -/
def Obligations.LgetlenAnswersLowSevenBits : Prop :=
  ∀ (b : Byte) (data : Word) (s : State),
    decode (BitVec.ofNat 32 (0x13000000 + b.toNat)) data = .ok (.lgetlen b) ∧
    exec (.lgetlen b) s = .next (answered (b.toNat % 128) s)

/-- Rule R74: a byte LVALID accepts has one meaning: short form with a length up to 127, or long form with a count from
1 to 4. -/
def Obligations.ValidLengthByteHasOneMeaning : Prop :=
  ∀ (b : Byte) (s : State), exec (.lvalid b) s = .next (answered 1 s) →
    (exec (.lmulti b) s = .next (answered 0 s) ∧ exec (.lgetlen b) s = .next (answered b.toNat s) ∧ b.toNat ≤ 127) ∨
    (exec (.lmulti b) s = .next (answered 1 s) ∧
      ∃ n, 1 ≤ n ∧ n ≤ 4 ∧ b.toNat = 0x80 + n ∧ exec (.lgetlen b) s = .next (answered n s))

/-- Rules R27, R70, R75: an inspector command the assembler writes answers one value, the same in every state, and
changes nothing else. -/
def Obligations.InspectorsAreStateless : Prop :=
  ∀ i : Instr, isInspector i = true → i.wellFormed = true → ∃ v, ∀ s, exec i s = .next (answered v s)

/-! ### Family P -/

/-- Rules R78 to R82, R77: TPARSE in every state, read off the list of bytes of the range that lie inside IN: it skips the
leading 0x00 bytes, takes a tag field of 1 to 3 bytes, and says so in TAG, CUR, EXH, SKIP, TOK, CONS and the response;
it exhausts the range, or raises ACCESS, where the list ends first; nothing else changes. The free bytes and their counter
are the model's (log 6, 11). -/
def Obligations.TparseFollowsTheBytesOfTheRange : Prop :=
  ∀ (data : Word) (s : State), decode 0x21000000 data = .ok .tparse ∧ exec .tparse s = .next (tparseOfRange s)

/-- Rules R83 to R86, R77: LPARSE in every state, read off the same list: a short form, a long form of 1 to 4 big-endian
bytes, an invalid byte, the range exhausted, or ACCESS; nothing else changes. The free bytes and their counter are the
model's (log 6, 11). -/
def Obligations.LparseFollowsTheBytesOfTheRange : Prop :=
  ∀ (data : Word) (s : State), decode 0x22000000 data = .ok .lparse ∧ exec .lparse s = .next (lparseOfRange s)

/-- Rule R80: where IN is plain memory and the range begins with `skip` bytes 0x00 and then the tag field `tb`, TPARSE
writes TAG, TOK, EXH, CONS, SKIP and the response from it, CUR is past it, and nothing else changes. -/
def Obligations.TparseAssemblesTheTag : Prop :=
  ∀ (s : State) (skip : Nat) (tb : List Byte), PlainRange s →
    (∀ j, j < skip → s.mem.byteAt (s.cur.toNat + j) = 0) → s.mem.byteAt (s.cur.toNat + skip) ≠ 0 →
    s.cur.toNat + skip + tb.length ≤ s.endr.toNat → s.cur.toNat + skip + tb.length ≤ s.mem.size →
    tb = (List.range tb.length).map (fun j => s.mem.byteAt (s.cur.toNat + skip + j)) → tagField tb = some tb →
    let tag := BitVec.ofNat 32 (tb.length * 2 ^ 24 + bigEndian tb)
    exec .tparse s = .next
      { s with
        cur := BitVec.ofNat 32 (s.cur.toNat + skip + tb.length)
        tag := tag
        st := tagStatus s.st true false ((tb.headD 0).toNat / 32 % 2 == 1) (decide (0 < skip))
        resp := some { rsp := tag, rerr := false } }

/-- Rule R85: where IN is plain memory and END at most INSIZE, LPARSE ends in one of three ways, and nothing else
changes. -/
def Obligations.LparseEndsInOneOfThreeWays : Prop :=
  ∀ s : State, PlainRange s → EndInsideIn s →
    exec .lparse s = .next
      (match lengthField ((List.range (s.endr.toNat - s.cur.toNat)).map (fun k => s.mem.byteAt (s.cur.toNat + k))) with
       | .value v long used =>
         { s with
           cur := BitVec.ofNat 32 (s.cur.toNat + used)
           len := BitVec.ofNat 32 v
           st := lenStatus s.st true false false long
           resp := some { rsp := BitVec.ofNat 32 v, rerr := false } }
       | .invalid =>
         { s with
           cur := BitVec.ofNat 32 (s.cur.toNat + 1)
           len := 0
           st := lenStatus s.st false true false false
           resp := some { rsp := 0, rerr := false } }
       | .unfinished long =>
         { s with
           cur := exhaustedCur s
           len := 0
           st := lenStatus s.st false false true long
           resp := some { rsp := 0, rerr := false } })

/-- Rule R36: a long form's value is its N bytes read big-endian, the byte at the lowest address most significant. -/
def Obligations.LongFormIsBigEndian : Prop :=
  ∀ (s : State) (n : Nat), PlainRange s → 1 ≤ n → n ≤ 4 → s.cur.toNat + n + 1 ≤ s.endr.toNat →
    s.cur.toNat + n + 1 ≤ s.mem.size → (s.mem.byteAt s.cur.toNat).toNat = 0x80 + n →
    let value := BitVec.ofNat 32
      (((List.range n).map (fun i => (s.mem.byteAt (s.cur.toNat + 1 + i)).toNat * 256 ^ (n - 1 - i))).sum)
    exec .lparse s = .next
      { s with
        cur := BitVec.ofNat 32 (s.cur.toNat + n + 1)
        len := value
        st := lenStatus s.st true false false true
        resp := some { rsp := value, rerr := false } }

/-- Rules R34, R76: a parse command reads no byte of IN outside `[CUR, END)`: replacing IN by one that reads the same
there changes nothing in what the command does. -/
def Obligations.ParseReadsOnlyTheRange : Prop :=
  ∀ (i : Instr) (s t : State) (m : Memory), isParse i →
    (∀ a, s.cur.toNat ≤ a → a < s.endr.toNat → ∀ d, s.mem.read a d = m.read a d) →
    exec i s = .next t → exec i { s with mem := m } = .next { t with mem := m }

/-- Rule R77: when a parse command raises ACCESS, CUR, TAG, LEN and the parse fields are as before; only the error record
and the response change (and the model's own counter, log 11). -/
def Obligations.AccessErrorRestoresTheState : Prop :=
  ∀ (i : Instr) (s t : State), isParse i → exec i s = .next t → Erred t →
    t = afterError 6 { s with draws := t.draws }

/-- Rule R87: with END at most INSIZE a parse command completes without an error whatever IN holds. -/
def Obligations.PayloadContentRaisesNoError : Prop :=
  ∀ (i : Instr) (s : State), isParse i → EndInsideIn s → ∃ t, exec i s = .next t ∧ NoCommandError t

/-- Rules R17, R76, R87: a parse command never moves CUR backwards or past END and never wraps it; it consumes at most
`max(0, END - CUR)` bytes, LPARSE at most 5. -/
def Obligations.CursorMovesForwardInsideTheRange : Prop :=
  ∀ (i : Instr) (s t : State), isParse i → exec i s = .next t →
    s.cur.toNat ≤ t.cur.toNat ∧ t.cur.toNat - s.cur.toNat ≤ s.endr.toNat - s.cur.toNat ∧
    (i = .lparse → t.cur.toNat - s.cur.toNat ≤ 5)

/-- Rule R24: after a TPARSE without error exactly one of TOK and EXH is 1; after an LPARSE without error exactly one of
LOK, LINV and EXH. -/
def Obligations.ParseOutcomesAreExclusive : Prop :=
  ∀ s t : State,
    (exec .tparse s = .next t → NoCommandError t → natOf (St.tok t.st) + natOf (St.exh t.st) = 1) ∧
    (exec .lparse s = .next t → NoCommandError t →
      natOf (St.lok t.st) + natOf (St.linv t.st) + natOf (St.exh t.st) = 1)

/-- Rule R23: TPARSE writes EXH, SKIP, TOK and CONS of ST, LPARSE EXH, LOK, LINV and LLONG, and no other bit; TPARSE leaves
LEN, LPARSE leaves TAG, and both leave END and IN. -/
def Obligations.ParseWritesOnlyItsOwnFields : Prop :=
  ∀ s t : State,
    (exec .tparse s = .next t → NoCommandError t →
      t.st &&& 0xFFFFFFF0#32 = s.st &&& 0xFFFFFFF0#32 ∧ t.len = s.len ∧ t.endr = s.endr ∧ t.mem = s.mem) ∧
    (exec .lparse s = .next t → NoCommandError t →
      t.st &&& 0xFFFFFF8E#32 = s.st &&& 0xFFFFFF8E#32 ∧ t.tag = s.tag ∧ t.endr = s.endr ∧ t.mem = s.mem)

/-- Rule R81: when TPARSE assembles a tag, the bytes it skipped are `CUR_after - CUR_before - TAGLEN`, each of them 0x00
and the next one not; SKIP says whether there was one. -/
def Obligations.SkippedBytesAreCountedByTheCursor : Prop :=
  ∀ s t : State, exec .tparse s = .next t → NoCommandError t → St.tok t.st = true →
    let k := t.cur.toNat - s.cur.toNat - t.tag.toNat / 2 ^ 24
    (∀ j, j < k → rangeByte s j = 0) ∧ rangeByte s k ≠ 0 ∧ (St.skip t.st = true ↔ 0 < k)

/-! ### Family R -/

/-- Rule R89: RD reg answers the register and changes nothing else; selectors 5 to 15 raise BAD_REG (code 4). -/
def Obligations.RdAnswersTheRegister : Prop :=
  ∀ (r : RegSel) (data : Word) (s : State),
    decode (BitVec.ofNat 32 (0x31000000 + 2 ^ 16 * selectorNumber r)) data = .ok (.rd r) ∧
    exec (.rd r) s = .next
      (match selectorNumber r with
       | 0 => answered s.cur.toNat s
       | 1 => answered s.endr.toNat s
       | 2 => answered s.tag.toNat s
       | 3 => answered s.len.toNat s
       | 4 => answered s.st.toNat s
       | _ => afterError 4 s)

/-- Rule R90: WR writes DATA into CUR or END and nothing else; TAG, LEN and ST raise RO_WRITE (code 5), selectors 5 to 15
BAD_REG (code 4). -/
def Obligations.WrWritesCurOrEnd : Prop :=
  ∀ (r : RegSel) (value : Word) (s : State),
    decode (BitVec.ofNat 32 (0x32000000 + 2 ^ 16 * selectorNumber r)) value = .ok (.wr r value) ∧
    exec (.wr r value) s = .next
      (match selectorNumber r with
       | 0 => answered 0 { s with cur := value }
       | 1 => answered 0 { s with endr := value }
       | 2 => afterError 5 s
       | 3 => afterError 5 s
       | 4 => afterError 5 s
       | _ => afterError 4 s)

/-- Rule R92: CLRERR clears ERR and ECODE, answers 0, and changes nothing else; one whose word has a reserved bit set is
itself an error and does not clear. -/
def Obligations.ClrerrClearsTheErrorRecord : Prop :=
  (∀ (data : Word) (s : State), decode 0x33000000 data = .ok .clrerr ∧
    exec .clrerr s = .next (answered 0 { s with st := s.st &&& 0xFFFF0EFF#32 })) ∧
  (∀ (cmd data : Word) (s : State), cmd.toNat / 2 ^ 24 = 0x33 → cmd.toNat % 2 ^ 24 ≠ 0 →
    acceptCommand cmd data s = .next (afterError 2 s))

/-! ### Responses -/

/-- Rule R57: every command returns a response; rsp is 0 with an error, and without one what the rule's table says of the
command. -/
def Obligations.EveryCommandReturnsAResponse : Prop :=
  ∀ (cmd data : Word) (s t : State), acceptCommand cmd data s = .next t →
    ∃ r, t.resp = some r ∧ (r.rerr = true → r.rsp = 0) ∧
      (r.rerr = false →
        (cmd.toNat / 2 ^ 24 = 0x01 → r.rsp.toNat ≤ 3) ∧
        (cmd.toNat / 2 ^ 24 ∈ [0x02, 0x03, 0x04, 0x05, 0x06, 0x11, 0x12] → r.rsp.toNat ≤ 1) ∧
        (cmd.toNat / 2 ^ 24 ∈ [0x07, 0x13] → r.rsp.toNat ≤ 127) ∧
        (cmd.toNat / 2 ^ 24 = 0x21 → r.rsp = t.tag) ∧
        (cmd.toNat / 2 ^ 24 = 0x22 → r.rsp = t.len) ∧
        (cmd.toNat / 2 ^ 24 = 0x31 → [s.cur, s.endr, s.tag, s.len, s.st][cmd.toNat / 2 ^ 16 % 16]? = some r.rsp) ∧
        (cmd.toNat / 2 ^ 24 ∈ [0x32, 0x33] → r.rsp = 0))

/-! ### Errors -/

/-- Rule R97: a command that errs changes ERR, ECODE if ERR was 0, and the response; nothing else (the model's own counter
apart, log 11). -/
def Obligations.ErrorsArePrecise : Prop :=
  ∀ (cmd data : Word) (s t : State), acceptCommand cmd data s = .next t → Erred t →
    ∃ c, 1 ≤ c ∧ c ≤ 6 ∧ t = afterError c { s with draws := t.draws }

/-- Rule R98: a second error while ERR is 1 leaves ST as it is; after CLRERR the next error records its code again, the
code of its first cause (rule R96), or ACCESS where it has no decode cause. -/
def Obligations.OnlyTheFirstErrorIsRecorded : Prop :=
  ∀ (cmd data : Word) (s t : State), acceptCommand cmd data s = .next t → Erred t →
    let c := (decodeErrorCode cmd).getD 6
    (St.err s.st = true → t.st = s.st) ∧
    1 ≤ c ∧ c ≤ 6 ∧ (St.err s.st = false → (St.ecode t.st).toNat = c) ∧
    ∃ u v : State, exec .clrerr s = .next u ∧ acceptCommand cmd data u = .next v ∧ Erred v ∧
      St.err v.st = true ∧ (St.ecode v.st).toNat = c

/-- Rule R99: ERR and ECODE change no command: with other values of them the command leaves every register, the rest of ST,
IN and, but for RD ST, the response the same. -/
def Obligations.ErrBlocksNoCommand : Prop :=
  ∀ (cmd data st : Word) (s t : State), st &&& 0xFFFF0EFF#32 = s.st &&& 0xFFFF0EFF#32 →
    acceptCommand cmd data s = .next t →
    ∃ t', acceptCommand cmd data { s with st := st } = .next t' ∧
      t'.cur = t.cur ∧ t'.endr = t.endr ∧ t'.tag = t.tag ∧ t'.len = t.len ∧ t'.mem = t.mem ∧
      t'.st &&& 0xFFFF0EFF#32 = t.st &&& 0xFFFF0EFF#32 ∧
      (if cmd = 0x31040000 then t'.resp = some { rsp := st, rerr := false } else t'.resp = t.resp)

/-! ### Whole-machine rules -/

/-- Rules R15, R17 to R19, R21, R33: over every command, CUR changes only by WR CUR, TPARSE and LPARSE, END only by WR END,
TAG only by TPARSE, LEN only by LPARSE, ST only by TPARSE, LPARSE, CLRERR and a command that errs, IN by none. -/
def Obligations.RegistersChangeOnlyByTheirWriters : Prop :=
  ∀ (i : Instr) (s t : State), exec i s = .next t →
    (t.cur ≠ s.cur → i = .tparse ∨ i = .lparse ∨ ∃ v, i = .wr .cur v) ∧
    (t.endr ≠ s.endr → ∃ v, i = .wr .endr v) ∧
    (t.tag ≠ s.tag → i = .tparse) ∧
    (t.len ≠ s.len → i = .lparse) ∧
    (t.st ≠ s.st → i = .tparse ∨ i = .lparse ∨ i = .clrerr ∨ Erred t) ∧
    t.mem = s.mem ∧ t.port = s.port

/-- Rule R26: the reserved bits of TAG and ST read as 0 after every step from a state in which they do. -/
def Obligations.ReservedBitsStayZero : Prop :=
  ∀ s t : State, ReservedZero s → step s = .next t → ReservedZero t

/-- The machine's invariant (IN's canonical form; reserved bits; ERR with ECODE; TAG with TOK and CONS; LEN with LOK, LINV
and LLONG) holds after every step from a state in which it holds. -/
def Obligations.InvariantIsKeptByEveryStep : Prop :=
  ∀ s t : State, Inv s → step s = .next t → Inv t

/-- The machine's invariant holds at reset. -/
def Obligations.InvariantHoldsAtReset : Prop := Inv State.reset

/-! ### The host's side -/

/-- Rule R58: the assembler writes only well-formed commands; it refuses n = 0. -/
def Obligations.AssemblerWritesWellFormedCommands : Prop :=
  ∀ (line : List Char) (is : List Instr), Asm.parseLine line = some is → ∀ i ∈ is, i.wellFormed = true

/-- Rule R59: RANGE a, e is WR CUR, a then WR END, e, in that order, each seen by the next. -/
def Obligations.RangeSetsCurThenEnd : Prop :=
  ∀ (a e : Word) (s : State) (rest : List PortEvent),
    s.port = (Pseudo.range a e).expand.map (fun i => .command (encode i).1 (encode i).2) ++ rest →
    ∃ t, step s = .next t ∧ t.cur = a ∧ t.endr = s.endr ∧
      step t = .next (answered 0 { s with cur := a, endr := e, port := rest })

/-- Rules R19, R20: under the invariant, a tag held in TAG has a text, the TAGLEN bytes of TBYTES, most significant first,
each two uppercase hex digits; a TAG with TOK = 0 has none. -/
def Obligations.TagTextIsTwoDigitsAByte : Prop :=
  ∀ s : State, Inv s →
    (St.tok s.st = false → tagText s.tag = none) ∧
    (St.tok s.st = true → ∃ x, tagText s.tag = some x ∧ x.length = 2 * (s.tag.toNat / 2 ^ 24) ∧
      ∀ i, i < x.length →
        x[i]? = ['0', '1', '2', '3', '4', '5', '6', '7', '8', '9', 'A', 'B', 'C', 'D', 'E', 'F'][
          s.tag.toNat % 2 ^ 24 / 16 ^ (x.length - 1 - i) % 16]?)

/-- Rules R87, R121: the host's decode of any range inside IN, over all its nesting levels, raises no error whatever IN
holds: ERR and ECODE are as before, the last response has `rerr = 0`, and IN is not written. The fuel bound of the
procedure is the model's (log 17). -/
def Obligations.HostDecodeRaisesNoError : Prop :=
  ∀ (a e : Nat) (s : State), a < 2 ^ 32 → e < 2 ^ 32 → e ≤ s.mem.size →
    (parseLevel a e s).2.st &&& 0x0000F100#32 = s.st &&& 0x0000F100#32 ∧ NoCommandError (parseLevel a e s).2 ∧
      (parseLevel a e s).2.mem = s.mem

/-- Rule R122: an element whose length field ends exactly at the end of the range is not emitted, whatever its length, its
tag's and length's forms, the bytes skipped before it and the elements before it: the level's tree is the one built so far.
Alone in a level it leaves the empty tree. -/
def Obligations.TrailingLengthFieldEmitsNoNode : Prop :=
  (∀ (s : State) (fuel : Nat) (tree : Tree) (skip : Nat) (tb lb : List Byte) (v : Nat),
    PlainRange s → EndInsideIn s →
    BeginsWithElement (bytesBetween s.mem s.cur.toNat s.endr.toNat) skip tb lb v [] →
    (parseLoop (fuel + 1) s.endr.toNat tree s).1 = tree) ∧
  (∀ (a e : Nat) (s : State) (skip : Nat) (tb lb : List Byte) (v : Nat),
    a < 2 ^ 32 → e < 2 ^ 32 → e ≤ s.mem.size → (∀ x, a ≤ x → x < e → x ∉ s.mem.erratic) →
    BeginsWithElement (bytesBetween s.mem a e) skip tb lb v [] → (parseLevel a e s).1 = .empty)

/-- Rules R121 to R123: with a byte left after the length field the element is put into the level's tree, under the text of
its tag and with its declared length: a primitive one with the lowercase hex of the bytes available, at most the length; a
constructed one with the tree of a level of its own over those bytes. The level goes on at `min(p + len, e)`. That the
host's own read gives the byte IN holds is its duty 2 here (log 19); fuel bounds the turns (log 17). -/
def Obligations.ElementWithAByteLeftIsPut : Prop :=
  ∀ (s : State) (fuel : Nat) (tree : Tree) (skip : Nat) (tb lb rest : List Byte) (v : Nat),
    PlainRange s → EndInsideIn s →
    BeginsWithElement (bytesBetween s.mem s.cur.toNat s.endr.toNat) skip tb lb v rest → rest ≠ [] →
    let e := s.endr.toNat
    let p := e - rest.length
    ∃ s' : State, s'.cur.toNat = min (p + v) e ∧ s'.endr = s.endr ∧ s'.mem = s.mem ∧
      if (tb.headD 0).getLsbD 5 then
        ∃ u : State, u.cur.toNat = p ∧ u.endr.toNat = p + min v rest.length ∧ u.mem = s.mem ∧
          parseLoop (fuel + 1) e tree s =
            parseLoop fuel e (Tree.putNode (hexText true tb) v (parseLoop fuel u.endr.toNat .empty u).1 tree) s'
      else
        parseLoop (fuel + 1) e tree s =
          parseLoop fuel e (Tree.putLeaf (hexText true tb) v (hexText false (rest.take v)) tree) s'
end

