-- ==== Sys2Proof/Laws/Encoding.lean ====
section
/-! SUPPORT. The encoding in numbers: the fields of a command word, the must-be-zero masks and the encoder's word
(rules R48, R53, R60), and what decoding gives for each OP (rules R54, R55). -/

namespace Sys2Proof

theorem toNat_opField (cmd : Word) : (opField cmd).toNat = cmd.toNat / 2 ^ 24 := by
  have := cmd.isLt
  simp [opField, BitVec.extractLsb'_toNat, Nat.shiftRight_eq_div_pow]
  omega

theorem toNat_rsField (cmd : Word) : (rsField cmd).toNat = cmd.toNat / 2 ^ 16 % 16 := by
  simp [rsField, BitVec.extractLsb'_toNat, Nat.shiftRight_eq_div_pow]

theorem toNat_bnField (cmd : Word) : (bnField cmd).toNat = cmd.toNat / 2 ^ 8 % 4 := by
  simp [bnField, BitVec.extractLsb'_toNat, Nat.shiftRight_eq_div_pow]

theorem toNat_bField (cmd : Word) : (bField cmd).toNat = cmd.toNat % 256 := by
  simp [bField, BitVec.extractLsb'_toNat]

/-- The encoder's word as a sum: its fields do not overlap. -/
theorem toNat_cmdWord (op : Byte) (rs : BitVec 4) (bn : BitVec 2) (b : Byte) :
    (cmdWord op rs bn b).toNat = op.toNat * 2 ^ 24 + rs.toNat * 2 ^ 16 + bn.toNat * 2 ^ 8 + b.toNat := by
  have h1 := op.isLt
  have h2 := rs.isLt
  have h3 := bn.isLt
  have h4 := b.isLt
  have e1 : (op.setWidth 32 <<< 24).toNat = op.toNat * 2 ^ 24 := by simp [Nat.shiftLeft_eq]; omega
  have e2 : (rs.setWidth 32 <<< 16).toNat = rs.toNat * 2 ^ 16 := by simp [Nat.shiftLeft_eq]; omega
  have e3 : (bn.setWidth 32 <<< 8).toNat = bn.toNat * 2 ^ 8 := by simp [Nat.shiftLeft_eq]; omega
  have e4 : (b.setWidth 32).toNat = b.toNat := by simp; omega
  have join : ∀ k x y : Nat, y < 2 ^ k → x * 2 ^ k ||| y = x * 2 ^ k + y := by
    intro k x y h
    rw [← Nat.shiftLeft_eq, Nat.shiftLeft_add_eq_or_of_lt h]
  unfold cmdWord
  rw [BitVec.toNat_or, BitVec.toNat_or, BitVec.toNat_or, e1, e2, e3, e4, join 24 _ _ (by omega)]
  have f2 := join 16 (op.toNat * 2 ^ 8 + rs.toNat) (bn.toNat * 2 ^ 8) (by omega)
  rw [show (op.toNat * 2 ^ 8 + rs.toNat) * 2 ^ 16 = op.toNat * 2 ^ 24 + rs.toNat * 2 ^ 16 by omega] at f2
  have f3 := join 8 (op.toNat * 2 ^ 16 + rs.toNat * 2 ^ 8 + bn.toNat) b.toNat (by omega)
  rw [show (op.toNat * 2 ^ 16 + rs.toNat * 2 ^ 8 + bn.toNat) * 2 ^ 8 =
    op.toNat * 2 ^ 24 + rs.toNat * 2 ^ 16 + bn.toNat * 2 ^ 8 by omega] at f3
  rw [f2, f3]

@[simp] theorem opField_cmdWord (op : Byte) (rs : BitVec 4) (bn : BitVec 2) (b : Byte) :
    opField (cmdWord op rs bn b) = op := by
  have h1 := op.isLt
  have h2 := rs.isLt
  have h3 := bn.isLt
  have h4 := b.isLt
  apply BitVec.eq_of_toNat_eq
  rw [toNat_opField, toNat_cmdWord]
  omega

@[simp] theorem rsField_cmdWord (op : Byte) (rs : BitVec 4) (bn : BitVec 2) (b : Byte) :
    rsField (cmdWord op rs bn b) = rs := by
  have h1 := op.isLt
  have h2 := rs.isLt
  have h3 := bn.isLt
  have h4 := b.isLt
  apply BitVec.eq_of_toNat_eq
  rw [toNat_rsField, toNat_cmdWord]
  omega

@[simp] theorem bnField_cmdWord (op : Byte) (rs : BitVec 4) (bn : BitVec 2) (b : Byte) :
    bnField (cmdWord op rs bn b) = bn := by
  have h1 := op.isLt
  have h2 := rs.isLt
  have h3 := bn.isLt
  have h4 := b.isLt
  apply BitVec.eq_of_toNat_eq
  rw [toNat_bnField, toNat_cmdWord]
  omega

@[simp] theorem bField_cmdWord (op : Byte) (rs : BitVec 4) (bn : BitVec 2) (b : Byte) :
    bField (cmdWord op rs bn b) = b := by
  have h1 := op.isLt
  have h2 := rs.isLt
  have h3 := bn.isLt
  have h4 := b.isLt
  apply BitVec.eq_of_toNat_eq
  rw [toNat_bField, toNat_cmdWord]
  omega

/-! ### Operands -/

@[simp] theorem ByteNo.toBits_ofBits (n : BitVec 2) : (ByteNo.ofBits n).toBits = n := by revert n; decide

@[simp] theorem ByteNo.ofBits_toBits (n : ByteNo) : ByteNo.ofBits n.toBits = n := by cases n <;> rfl

@[simp] theorem RegSel.toBits_ofBits (r : BitVec 4) : (RegSel.ofBits r).toBits = r := by revert r; decide

@[simp] theorem RegSel.ofBits_toBits (r : RegSel) : RegSel.ofBits r.toBits = r := by
  cases r with
  | undefined k => revert k; decide
  | _ => rfl

/-! ### The must-be-zero bits (rule R53) -/

/-- A word has none of a mask's bits exactly when each is 0. -/
theorem and_mask_eq_zero (cmd mask : Word) :
    cmd &&& mask = 0 ↔ ∀ i, i < 32 → mask.getLsbD i = true → cmd.getLsbD i = false := by
  constructor
  · intro h i _ hm
    have hb := congrArg (fun w => w.getLsbD i) h
    simp only [BitVec.getLsbD_and, hm, Bool.and_true] at hb
    simpa using hb
  · intro h
    apply BitVec.eq_of_getLsbD_eq
    intro i hi
    have hb := h i hi
    cases hm : mask.getLsbD i <;> simp_all

/-- A field of a word, as a number, is 0 exactly when each of its bits is. -/
theorem field_eq_zero (cmd : Word) (lo n : Nat) :
    cmd.toNat / 2 ^ lo % 2 ^ n = 0 ↔ ∀ i, i < n → cmd.getLsbD (lo + i) = false := by
  constructor
  · intro h i hi
    have hb := congrArg (fun x => x.testBit i) h
    simp only [Nat.testBit_mod_two_pow, Nat.testBit_div_two_pow, Nat.zero_testBit, hi, decide_true,
      Bool.true_and] at hb
    rwa [Nat.add_comm] at hb
  · intro h
    apply Nat.eq_of_testBit_eq
    intro i
    simp only [Nat.testBit_mod_two_pow, Nat.testBit_div_two_pow, Nat.zero_testBit]
    by_cases hi : i < n
    · have hb := h i hi
      rw [Nat.add_comm] at hb
      simp [hi]
      simpa [BitVec.getLsbD] using hb
    · simp [hi]

theorem reservedOfB_clear (cmd : Word) : cmd &&& reservedOfB = 0 ↔ cmd.toNat / 2 ^ 8 % 2 ^ 16 = 0 := by
  rw [and_mask_eq_zero, field_eq_zero]
  constructor
  · intro h i hi
    exact h (8 + i) (by omega) (by revert hi; revert i; decide)
  · intro h i hi hm
    have hr : 8 ≤ i ∧ i < 24 := by revert hm hi; revert i; decide
    simpa [show 8 + (i - 8) = i by omega] using h (i - 8) (by omega)

theorem reservedOfBnB_clear (cmd : Word) : cmd &&& reservedOfBnB = 0 ↔ cmd.toNat / 2 ^ 10 % 2 ^ 14 = 0 := by
  rw [and_mask_eq_zero, field_eq_zero]
  constructor
  · intro h i hi
    exact h (10 + i) (by omega) (by revert hi; revert i; decide)
  · intro h i hi hm
    have hr : 10 ≤ i ∧ i < 24 := by revert hm hi; revert i; decide
    simpa [show 10 + (i - 10) = i by omega] using h (i - 10) (by omega)

theorem reservedOfNone_clear (cmd : Word) : cmd &&& reservedOfNone = 0 ↔ cmd.toNat % 2 ^ 24 = 0 := by
  have hf := field_eq_zero cmd 0 24
  simp only [Nat.pow_zero, Nat.div_one, Nat.zero_add] at hf
  rw [and_mask_eq_zero, hf]
  constructor
  · intro h i hi
    exact h i (by omega) (by revert hi; revert i; decide)
  · intro h i hi hm
    have hr : i < 24 := by revert hm hi; revert i; decide
    exact h i hr

theorem reservedOfRs_clear (cmd : Word) :
    cmd &&& reservedOfRs = 0 ↔ cmd.toNat / 2 ^ 20 % 2 ^ 4 = 0 ∧ cmd.toNat % 2 ^ 16 = 0 := by
  have hf := field_eq_zero cmd 0 16
  simp only [Nat.pow_zero, Nat.div_one, Nat.zero_add] at hf
  rw [and_mask_eq_zero, field_eq_zero, hf]
  constructor
  · intro h
    exact ⟨fun i hi => h (20 + i) (by omega) (by revert hi; revert i; decide),
      fun i hi => h i (by omega) (by revert hi; revert i; decide)⟩
  · intro ⟨h1, h2⟩ i hi hm
    have hr : i < 16 ∨ (20 ≤ i ∧ i < 24) := by revert hm hi; revert i; decide
    rcases hr with hr | hr
    · exact h2 i hr
    · simpa [show 20 + (i - 20) = i by omega] using h1 (i - 20) (by omega)

/-! ### The decoder -/

theorem ifReservedClear_ok {cmd m : Word} {i j : Instr} :
    ifReservedClear cmd m i = .ok j ↔ cmd &&& m = 0 ∧ i = j := by
  unfold ifReservedClear
  by_cases h : cmd &&& m = 0#32 <;> simp [h]

theorem ifReservedClear_error {cmd m : Word} {i : Instr} {c : ErrCode} :
    ifReservedClear cmd m i = .error c ↔ ¬ cmd &&& m = 0 ∧ c = .reservedBits := by
  unfold ifReservedClear
  by_cases h : cmd &&& m = 0#32 <;> simp [h, eq_comm]

/-- What decoding gives, by the number OP. -/
theorem decode_by_op (cmd data : Word) :
    decode cmd data =
      if cmd.toNat / 2 ^ 24 = 0x01 then ifReservedClear cmd reservedOfB (.tclass (bField cmd))
      else if cmd.toNat / 2 ^ 24 = 0x02 then ifReservedClear cmd reservedOfB (.tcons (bField cmd))
      else if cmd.toNat / 2 ^ 24 = 0x03 then ifReservedClear cmd reservedOfB (.tprim (bField cmd))
      else if cmd.toNat / 2 ^ 24 = 0x04 then ifReservedClear cmd reservedOfB (.tmulti (bField cmd))
      else if cmd.toNat / 2 ^ 24 = 0x05 then ifReservedClear cmd reservedOfB (.tlast (bField cmd))
      else if cmd.toNat / 2 ^ 24 = 0x06 then
        ifReservedClear cmd reservedOfBnB (.tvalid (bField cmd) (ByteNo.ofBits (bnField cmd)))
      else if cmd.toNat / 2 ^ 24 = 0x07 then
        ifReservedClear cmd reservedOfBnB (.tnumf (bField cmd) (ByteNo.ofBits (bnField cmd)))
      else if cmd.toNat / 2 ^ 24 = 0x11 then ifReservedClear cmd reservedOfB (.lvalid (bField cmd))
      else if cmd.toNat / 2 ^ 24 = 0x12 then ifReservedClear cmd reservedOfB (.lmulti (bField cmd))
      else if cmd.toNat / 2 ^ 24 = 0x13 then ifReservedClear cmd reservedOfB (.lgetlen (bField cmd))
      else if cmd.toNat / 2 ^ 24 = 0x21 then ifReservedClear cmd reservedOfNone .tparse
      else if cmd.toNat / 2 ^ 24 = 0x22 then ifReservedClear cmd reservedOfNone .lparse
      else if cmd.toNat / 2 ^ 24 = 0x31 then ifReservedClear cmd reservedOfRs (.rd (RegSel.ofBits (rsField cmd)))
      else if cmd.toNat / 2 ^ 24 = 0x32 then
        ifReservedClear cmd reservedOfRs (.wr (RegSel.ofBits (rsField cmd)) data)
      else if cmd.toNat / 2 ^ 24 = 0x33 then ifReservedClear cmd reservedOfNone .clrerr
      else .error .illegalOpcode := by
  unfold decode
  rw [toNat_opField]
  split <;> simp_all

namespace Machine

/-- A command with a decode error raises it and is not performed (rules R11, R56). -/
theorem acceptCommand_error {cmd data : Word} {c : ErrCode} (h : decode cmd data = .error c) (s : State) :
    acceptCommand cmd data s = .next (raiseError c s) := by
  unfold acceptCommand
  rw [h]

/-- A command that decodes is performed (rule R56). -/
theorem acceptCommand_ok {cmd data : Word} {i : Instr} (h : decode cmd data = .ok i) (s : State) :
    acceptCommand cmd data s = exec i s := by
  unfold acceptCommand
  rw [h]

/-- A step takes the next event from the port. -/
theorem nextEvent_cons {s : State} {e : PortEvent} {rest : List PortEvent} (h : s.port = e :: rest) :
    nextEvent s = portEvent e (s.setPort rest) := by
  unfold nextEvent
  rw [h]

end Machine

end Sys2Proof
end

