-- ==== Sys2Proof/Laws/State.lean ====
section
/-! SUPPORT. One lemma per field per update, so that no proof unfolds a record update; what the shared updates do to
each field; and that equal updates of equal fields are equal states. -/

namespace Sys2Proof.Machine

variable (s : State)

@[simp] theorem State.setCur_cur (v : Word) : (s.setCur v).cur = v := rfl
@[simp] theorem State.setCur_endr (v : Word) : (s.setCur v).endr = s.endr := rfl
@[simp] theorem State.setCur_tag (v : Word) : (s.setCur v).tag = s.tag := rfl
@[simp] theorem State.setCur_len (v : Word) : (s.setCur v).len = s.len := rfl
@[simp] theorem State.setCur_st (v : Word) : (s.setCur v).st = s.st := rfl
@[simp] theorem State.setCur_mem (v : Word) : (s.setCur v).mem = s.mem := rfl
@[simp] theorem State.setCur_port (v : Word) : (s.setCur v).port = s.port := rfl
@[simp] theorem State.setCur_resp (v : Word) : (s.setCur v).resp = s.resp := rfl
@[simp] theorem State.setCur_draws (v : Word) : (s.setCur v).draws = s.draws := rfl

@[simp] theorem State.setEnd_cur (v : Word) : (s.setEnd v).cur = s.cur := rfl
@[simp] theorem State.setEnd_endr (v : Word) : (s.setEnd v).endr = v := rfl
@[simp] theorem State.setEnd_tag (v : Word) : (s.setEnd v).tag = s.tag := rfl
@[simp] theorem State.setEnd_len (v : Word) : (s.setEnd v).len = s.len := rfl
@[simp] theorem State.setEnd_st (v : Word) : (s.setEnd v).st = s.st := rfl
@[simp] theorem State.setEnd_mem (v : Word) : (s.setEnd v).mem = s.mem := rfl
@[simp] theorem State.setEnd_port (v : Word) : (s.setEnd v).port = s.port := rfl
@[simp] theorem State.setEnd_resp (v : Word) : (s.setEnd v).resp = s.resp := rfl
@[simp] theorem State.setEnd_draws (v : Word) : (s.setEnd v).draws = s.draws := rfl

@[simp] theorem State.setTag_cur (v : Word) : (s.setTag v).cur = s.cur := rfl
@[simp] theorem State.setTag_endr (v : Word) : (s.setTag v).endr = s.endr := rfl
@[simp] theorem State.setTag_tag (v : Word) : (s.setTag v).tag = v := rfl
@[simp] theorem State.setTag_len (v : Word) : (s.setTag v).len = s.len := rfl
@[simp] theorem State.setTag_st (v : Word) : (s.setTag v).st = s.st := rfl
@[simp] theorem State.setTag_mem (v : Word) : (s.setTag v).mem = s.mem := rfl
@[simp] theorem State.setTag_port (v : Word) : (s.setTag v).port = s.port := rfl
@[simp] theorem State.setTag_resp (v : Word) : (s.setTag v).resp = s.resp := rfl
@[simp] theorem State.setTag_draws (v : Word) : (s.setTag v).draws = s.draws := rfl

@[simp] theorem State.setLen_cur (v : Word) : (s.setLen v).cur = s.cur := rfl
@[simp] theorem State.setLen_endr (v : Word) : (s.setLen v).endr = s.endr := rfl
@[simp] theorem State.setLen_tag (v : Word) : (s.setLen v).tag = s.tag := rfl
@[simp] theorem State.setLen_len (v : Word) : (s.setLen v).len = v := rfl
@[simp] theorem State.setLen_st (v : Word) : (s.setLen v).st = s.st := rfl
@[simp] theorem State.setLen_mem (v : Word) : (s.setLen v).mem = s.mem := rfl
@[simp] theorem State.setLen_port (v : Word) : (s.setLen v).port = s.port := rfl
@[simp] theorem State.setLen_resp (v : Word) : (s.setLen v).resp = s.resp := rfl
@[simp] theorem State.setLen_draws (v : Word) : (s.setLen v).draws = s.draws := rfl

@[simp] theorem State.setSt_cur (v : Word) : (s.setSt v).cur = s.cur := rfl
@[simp] theorem State.setSt_endr (v : Word) : (s.setSt v).endr = s.endr := rfl
@[simp] theorem State.setSt_tag (v : Word) : (s.setSt v).tag = s.tag := rfl
@[simp] theorem State.setSt_len (v : Word) : (s.setSt v).len = s.len := rfl
@[simp] theorem State.setSt_st (v : Word) : (s.setSt v).st = v := rfl
@[simp] theorem State.setSt_mem (v : Word) : (s.setSt v).mem = s.mem := rfl
@[simp] theorem State.setSt_port (v : Word) : (s.setSt v).port = s.port := rfl
@[simp] theorem State.setSt_resp (v : Word) : (s.setSt v).resp = s.resp := rfl
@[simp] theorem State.setSt_draws (v : Word) : (s.setSt v).draws = s.draws := rfl

@[simp] theorem State.setMem_cur (v : Memory) : (s.setMem v).cur = s.cur := rfl
@[simp] theorem State.setMem_endr (v : Memory) : (s.setMem v).endr = s.endr := rfl
@[simp] theorem State.setMem_tag (v : Memory) : (s.setMem v).tag = s.tag := rfl
@[simp] theorem State.setMem_len (v : Memory) : (s.setMem v).len = s.len := rfl
@[simp] theorem State.setMem_st (v : Memory) : (s.setMem v).st = s.st := rfl
@[simp] theorem State.setMem_mem (v : Memory) : (s.setMem v).mem = v := rfl
@[simp] theorem State.setMem_port (v : Memory) : (s.setMem v).port = s.port := rfl
@[simp] theorem State.setMem_resp (v : Memory) : (s.setMem v).resp = s.resp := rfl
@[simp] theorem State.setMem_draws (v : Memory) : (s.setMem v).draws = s.draws := rfl

@[simp] theorem State.setPort_cur (v : List PortEvent) : (s.setPort v).cur = s.cur := rfl
@[simp] theorem State.setPort_endr (v : List PortEvent) : (s.setPort v).endr = s.endr := rfl
@[simp] theorem State.setPort_tag (v : List PortEvent) : (s.setPort v).tag = s.tag := rfl
@[simp] theorem State.setPort_len (v : List PortEvent) : (s.setPort v).len = s.len := rfl
@[simp] theorem State.setPort_st (v : List PortEvent) : (s.setPort v).st = s.st := rfl
@[simp] theorem State.setPort_mem (v : List PortEvent) : (s.setPort v).mem = s.mem := rfl
@[simp] theorem State.setPort_port (v : List PortEvent) : (s.setPort v).port = v := rfl
@[simp] theorem State.setPort_resp (v : List PortEvent) : (s.setPort v).resp = s.resp := rfl
@[simp] theorem State.setPort_draws (v : List PortEvent) : (s.setPort v).draws = s.draws := rfl

@[simp] theorem State.setResp_cur (v : Option Response) : (s.setResp v).cur = s.cur := rfl
@[simp] theorem State.setResp_endr (v : Option Response) : (s.setResp v).endr = s.endr := rfl
@[simp] theorem State.setResp_tag (v : Option Response) : (s.setResp v).tag = s.tag := rfl
@[simp] theorem State.setResp_len (v : Option Response) : (s.setResp v).len = s.len := rfl
@[simp] theorem State.setResp_st (v : Option Response) : (s.setResp v).st = s.st := rfl
@[simp] theorem State.setResp_mem (v : Option Response) : (s.setResp v).mem = s.mem := rfl
@[simp] theorem State.setResp_port (v : Option Response) : (s.setResp v).port = s.port := rfl
@[simp] theorem State.setResp_resp (v : Option Response) : (s.setResp v).resp = v := rfl
@[simp] theorem State.setResp_draws (v : Option Response) : (s.setResp v).draws = s.draws := rfl

@[simp] theorem State.setDraws_cur (v : Nat) : (s.setDraws v).cur = s.cur := rfl
@[simp] theorem State.setDraws_endr (v : Nat) : (s.setDraws v).endr = s.endr := rfl
@[simp] theorem State.setDraws_tag (v : Nat) : (s.setDraws v).tag = s.tag := rfl
@[simp] theorem State.setDraws_len (v : Nat) : (s.setDraws v).len = s.len := rfl
@[simp] theorem State.setDraws_st (v : Nat) : (s.setDraws v).st = s.st := rfl
@[simp] theorem State.setDraws_mem (v : Nat) : (s.setDraws v).mem = s.mem := rfl
@[simp] theorem State.setDraws_port (v : Nat) : (s.setDraws v).port = s.port := rfl
@[simp] theorem State.setDraws_resp (v : Nat) : (s.setDraws v).resp = s.resp := rfl
@[simp] theorem State.setDraws_draws (v : Nat) : (s.setDraws v).draws = v := rfl

@[simp] theorem respond_cur (v : Word) : (respond v s).cur = s.cur := rfl
@[simp] theorem respond_endr (v : Word) : (respond v s).endr = s.endr := rfl
@[simp] theorem respond_tag (v : Word) : (respond v s).tag = s.tag := rfl
@[simp] theorem respond_len (v : Word) : (respond v s).len = s.len := rfl
@[simp] theorem respond_st (v : Word) : (respond v s).st = s.st := rfl
@[simp] theorem respond_mem (v : Word) : (respond v s).mem = s.mem := rfl
@[simp] theorem respond_port (v : Word) : (respond v s).port = s.port := rfl
@[simp] theorem respond_resp (v : Word) : (respond v s).resp = some { rsp := v, rerr := false } := rfl
@[simp] theorem respond_draws (v : Word) : (respond v s).draws = s.draws := rfl

@[simp] theorem raiseError_cur (c : ErrCode) : (raiseError c s).cur = s.cur := rfl
@[simp] theorem raiseError_endr (c : ErrCode) : (raiseError c s).endr = s.endr := rfl
@[simp] theorem raiseError_tag (c : ErrCode) : (raiseError c s).tag = s.tag := rfl
@[simp] theorem raiseError_len (c : ErrCode) : (raiseError c s).len = s.len := rfl
@[simp] theorem raiseError_st (c : ErrCode) : (raiseError c s).st = St.withError s.st c := rfl
@[simp] theorem raiseError_mem (c : ErrCode) : (raiseError c s).mem = s.mem := rfl
@[simp] theorem raiseError_port (c : ErrCode) : (raiseError c s).port = s.port := rfl
@[simp] theorem raiseError_resp (c : ErrCode) : (raiseError c s).resp = some { rsp := 0, rerr := true } := rfl
@[simp] theorem raiseError_draws (c : ErrCode) : (raiseError c s).draws = s.draws := rfl

@[simp] theorem clearError_cur : (clearError s).cur = s.cur := rfl
@[simp] theorem clearError_endr : (clearError s).endr = s.endr := rfl
@[simp] theorem clearError_tag : (clearError s).tag = s.tag := rfl
@[simp] theorem clearError_len : (clearError s).len = s.len := rfl
@[simp] theorem clearError_st : (clearError s).st = St.clearError s.st := rfl
@[simp] theorem clearError_mem : (clearError s).mem = s.mem := rfl
@[simp] theorem clearError_port : (clearError s).port = s.port := rfl
@[simp] theorem clearError_resp : (clearError s).resp = s.resp := rfl
@[simp] theorem clearError_draws : (clearError s).draws = s.draws := rfl

@[simp] theorem State.applyReset_cur : (s.applyReset).cur = 0 := rfl
@[simp] theorem State.applyReset_endr : (s.applyReset).endr = 0 := rfl
@[simp] theorem State.applyReset_tag : (s.applyReset).tag = 0 := rfl
@[simp] theorem State.applyReset_len : (s.applyReset).len = 0 := rfl
@[simp] theorem State.applyReset_st : (s.applyReset).st = 0 := rfl
@[simp] theorem State.applyReset_mem : (s.applyReset).mem = s.mem := rfl
@[simp] theorem State.applyReset_port : (s.applyReset).port = s.port := rfl
@[simp] theorem State.applyReset_resp : (s.applyReset).resp = none := rfl
@[simp] theorem State.applyReset_draws : (s.applyReset).draws = s.draws := rfl

@[simp] theorem raiseAccess_cur (s0 : State) : (raiseAccess s0 s).cur = s0.cur := rfl
@[simp] theorem raiseAccess_endr (s0 : State) : (raiseAccess s0 s).endr = s0.endr := rfl
@[simp] theorem raiseAccess_tag (s0 : State) : (raiseAccess s0 s).tag = s0.tag := rfl
@[simp] theorem raiseAccess_len (s0 : State) : (raiseAccess s0 s).len = s0.len := rfl
@[simp] theorem raiseAccess_st (s0 : State) : (raiseAccess s0 s).st = St.withError s0.st .access := rfl
@[simp] theorem raiseAccess_mem (s0 : State) : (raiseAccess s0 s).mem = s0.mem := rfl
@[simp] theorem raiseAccess_port (s0 : State) : (raiseAccess s0 s).port = s0.port := rfl
@[simp] theorem raiseAccess_resp (s0 : State) : (raiseAccess s0 s).resp = some { rsp := 0, rerr := true } := rfl
@[simp] theorem raiseAccess_draws (s0 : State) : (raiseAccess s0 s).draws = s.draws := rfl

/-- Two states with the same fields are the same state. -/
theorem State.eq_of_fields {s t : State} (hcur : s.cur = t.cur) (hend : s.endr = t.endr) (htag : s.tag = t.tag)
    (hlen : s.len = t.len) (hst : s.st = t.st) (hmem : s.mem = t.mem) (hport : s.port = t.port)
    (hresp : s.resp = t.resp) (hdraws : s.draws = t.draws) : s = t := by
  cases s; cases t; simp_all

end Sys2Proof.Machine
end

