-- ==== Sys2Proof/Laws/Flags.lean ====
section
/-! SUPPORT. What each write of ST does, bit by bit (rules R22, R23, R92, R97). -/

namespace Sys2Proof.Machine

/-- Setting one bit changes that bit alone. -/
theorem getLsbD_setBit (w : Word) {i : Nat} (hi : i < 32) (v : Bool) (j : Nat) :
    (setBit w i v).getLsbD j = if j = i then v else w.getLsbD j := by
  unfold setBit
  by_cases hj : j < 32
  · by_cases hji : j = i
    · subst hji; cases v <;> simp [hj]
    · cases v <;> simp [hj, hji]
  · have hji : j ≠ i := by omega
    rw [BitVec.getLsbD_of_ge _ _ (by omega), BitVec.getLsbD_of_ge w _ (by omega)]
    simp [hji]

theorem getLsbD_ecodeMask (j : Nat) (hj : j < 32) :
    (0x0000F000#32).getLsbD j = (decide (12 ≤ j) && decide (j < 16)) := by
  revert j; decide

/-- Setting ECODE changes bits 15:12 alone. -/
theorem getLsbD_setEcode (st : Word) (c : BitVec 4) (j : Nat) :
    (St.setEcode st c).getLsbD j = if 12 ≤ j ∧ j < 16 then c.getLsbD (j - 12) else st.getLsbD j := by
  unfold St.setEcode
  by_cases hj : j < 32
  · have hm := getLsbD_ecodeMask j hj
    simp only [BitVec.getLsbD_or, BitVec.getLsbD_and, BitVec.getLsbD_not, BitVec.getLsbD_shiftLeft,
      BitVec.getLsbD_setWidth, hm, hj, decide_true, Bool.true_and]
    by_cases h1 : 12 ≤ j
    · by_cases h2 : j < 16
      · have h3 : ¬ j < 12 := by omega
        have h4 : j - 12 < 32 := by omega
        simp [h1, h2, h3, h4]
      · have h5 : c.getLsbD (j - 12) = false := BitVec.getLsbD_of_ge c _ (by omega)
        simp [h2, h5]
    · have h3 : j < 12 := by omega
      simp [h1, h3]
  · have h1 : ¬ (12 ≤ j ∧ j < 16) := by omega
    rw [BitVec.getLsbD_of_ge _ _ (by omega), BitVec.getLsbD_of_ge st _ (by omega), if_neg h1]

/-- TPARSE's write of ST: EXH, SKIP, TOK and CONS, every other bit unchanged. -/
theorem getLsbD_withTagFlags (st : Word) (tok exh cons skip : Bool) (j : Nat) :
    (St.withTagFlags st tok exh cons skip).getLsbD j =
      if j = 1 then skip else if j = 3 then cons else if j = 0 then exh else if j = 2 then tok else st.getLsbD j := by
  simp only [St.withTagFlags, getLsbD_setBit _ (by decide : 0 < 32), getLsbD_setBit _ (by decide : 1 < 32),
    getLsbD_setBit _ (by decide : 2 < 32), getLsbD_setBit _ (by decide : 3 < 32)]

/-- LPARSE's write of ST: EXH, LOK, LINV and LLONG, every other bit unchanged. -/
theorem getLsbD_withLenFlags (st : Word) (lok linv exh llong : Bool) (j : Nat) :
    (St.withLenFlags st lok linv exh llong).getLsbD j =
      if j = 6 then llong else if j = 0 then exh else if j = 5 then linv else if j = 4 then lok else st.getLsbD j := by
  simp only [St.withLenFlags, getLsbD_setBit _ (by decide : 0 < 32), getLsbD_setBit _ (by decide : 4 < 32),
    getLsbD_setBit _ (by decide : 5 < 32), getLsbD_setBit _ (by decide : 6 < 32)]

/-- The first error: ERR set and ECODE the code, every other bit unchanged. -/
theorem getLsbD_withError_first {st : Word} (h : St.err st = false) (c : ErrCode) (j : Nat) :
    (St.withError st c).getLsbD j =
      if 12 ≤ j ∧ j < 16 then (ErrCode.ecode c).getLsbD (j - 12) else if j = 8 then true else st.getLsbD j := by
  simp only [St.withError, h, Bool.false_eq_true, if_false, getLsbD_setEcode, getLsbD_setBit _ (by decide : 8 < 32)]

/-- A later error leaves ST as it is. -/
theorem withError_later {st : Word} (h : St.err st = true) (c : ErrCode) : St.withError st c = st := by
  apply BitVec.eq_of_getLsbD_eq
  intro j hj
  simp only [St.withError, h, if_true, getLsbD_setBit _ (by decide : 8 < 32)]
  by_cases h8 : j = 8
  · subst h8; simpa [St.err] using h.symm
  · simp [h8]

/-- CLRERR's write of ST: ERR and ECODE 0, every other bit unchanged. -/
theorem getLsbD_clearError (st : Word) (j : Nat) :
    (St.clearError st).getLsbD j =
      if 12 ≤ j ∧ j < 16 then false else if j = 8 then false else st.getLsbD j := by
  have hz : ∀ k, (0 : BitVec 4).getLsbD k = false := fun k => by simp
  simp only [St.clearError, getLsbD_setEcode, getLsbD_setBit _ (by decide : 8 < 32), hz]

end Sys2Proof.Machine
end

