-- ==== Sys2Proof/Laws/Operands.lean ====
section
/-! SUPPORT. The classifiers and the packing of TAG in numbers (rules R19, R62, R64, R65, R71, R72), the status words the
meanings write equal to the ones claims are stated in (rules R23, R92, R97), and the fields of ST after each. -/

namespace Sys2Proof.Machine

/-! ### Classifiers -/

theorem tagMultiByte_eq (b : Byte) : tagMultiByte b = decide (b.toNat % 32 = 31) := by revert b; decide
theorem tagLast_eq (b : Byte) : tagLast b = decide (b.toNat < 128) := by revert b; decide
theorem tagConstructed_eq (b : Byte) : tagConstructed b = (b.toNat / 32 % 2 == 1) := by revert b; decide
theorem lenValid_eq (b : Byte) : lenValid b = decide (b.toNat ≠ 0x80 ∧ b.toNat ≤ 0x84) := by revert b; decide
theorem lenMultiByte_eq (b : Byte) : lenMultiByte b = decide (0x80 ≤ b.toNat) := by revert b; decide

/-! ### TAG -/

theorem toNat_packTag (k : BitVec 2) (x : BitVec 24) : (packTag k x).toNat = k.toNat * 2 ^ 24 + x.toNat := by
  have := x.isLt
  unfold packTag
  rw [BitVec.toNat_append, BitVec.toNat_append, ← Nat.shiftLeft_add_eq_or_of_lt (by omega)]
  simp [Nat.shiftLeft_eq]

theorem toNat_tagBytes1 (a : Byte) : (tagBytes1 a).toNat = a.toNat := by
  have := a.isLt
  simp [tagBytes1]
  omega

theorem toNat_tagBytes2 (a b : Byte) : (tagBytes2 a b).toNat = a.toNat * 256 + b.toNat := by
  have := a.isLt
  have := b.isLt
  unfold tagBytes2
  rw [BitVec.toNat_setWidth, BitVec.toNat_append, ← Nat.shiftLeft_add_eq_or_of_lt (by omega)]
  simp [Nat.shiftLeft_eq]
  omega

theorem toNat_tagBytes3 (a b c : Byte) : (tagBytes3 a b c).toNat = (a.toNat * 256 + b.toNat) * 256 + c.toNat := by
  have := a.isLt
  have := b.isLt
  have := c.isLt
  unfold tagBytes3
  rw [BitVec.toNat_append, BitVec.toNat_append, ← Nat.shiftLeft_add_eq_or_of_lt (by omega),
    ← Nat.shiftLeft_add_eq_or_of_lt (by omega)]
  simp [Nat.shiftLeft_eq]

/-! ### Responses -/

theorem word_eq_ofNat {w : Word} {n : Nat} (h : w.toNat = n) : w = BitVec.ofNat 32 n := by
  apply BitVec.eq_of_toNat_eq
  have := w.isLt
  simp
  omega

theorem respond_eq_answered {v : Word} {n : Nat} (h : v.toNat = n) (s : State) : respond v s = answered n s := by
  rw [word_eq_ofNat h]
  rfl

/-! ### The status words -/

theorem withTagFlags_eq (st : Word) (tok exh cons skip : Bool) :
    St.withTagFlags st tok exh cons skip = tagStatus st tok exh cons skip := by
  apply BitVec.eq_of_getLsbD_eq
  intro j hj
  rw [getLsbD_withTagFlags, tagStatus, BitVec.getLsbD_or, BitVec.getLsbD_and]
  have a1 : (0xFFFFFFF0#32).getLsbD j = decide (4 ≤ j) := by revert hj; revert j; decide
  have a2 : (BitVec.ofNat 32 (natOf exh + 2 * natOf skip + 4 * natOf tok + 8 * natOf cons)).getLsbD j =
      if j = 1 then skip else if j = 3 then cons else if j = 0 then exh else if j = 2 then tok else false := by
    clear a1; revert hj; revert j; cases exh <;> cases skip <;> cases tok <;> cases cons <;> decide
  rw [a1, a2]
  by_cases h1 : j = 1
  · simp [h1]
  by_cases h3 : j = 3
  · simp [h3]
  by_cases h0 : j = 0
  · simp [h0]
  by_cases h2 : j = 2
  · simp [h2]
  have h4 : 4 ≤ j := by omega
  simp [h1, h2, h3, h0, h4]

theorem withLenFlags_eq (st : Word) (lok linv exh llong : Bool) :
    St.withLenFlags st lok linv exh llong = lenStatus st lok linv exh llong := by
  apply BitVec.eq_of_getLsbD_eq
  intro j hj
  rw [getLsbD_withLenFlags, lenStatus, BitVec.getLsbD_or, BitVec.getLsbD_and]
  have a1 : (0xFFFFFF8E#32).getLsbD j =
      !(decide (j = 0) || decide (j = 4) || decide (j = 5) || decide (j = 6)) := by
    revert hj; revert j; decide
  have a2 : (BitVec.ofNat 32 (natOf exh + 0x10 * natOf lok + 0x20 * natOf linv + 0x40 * natOf llong)).getLsbD j =
      if j = 6 then llong else if j = 0 then exh else if j = 5 then linv else if j = 4 then lok else false := by
    clear a1; revert hj; revert j; cases exh <;> cases lok <;> cases linv <;> cases llong <;> decide
  rw [a1, a2]
  by_cases h6 : j = 6
  · simp [h6]
  by_cases h0 : j = 0
  · simp [h0]
  by_cases h5 : j = 5
  · simp [h5]
  by_cases h4 : j = 4
  · simp [h4]
  simp [h6, h0, h5, h4]

theorem getLsbD_errorMask (j : Nat) (hj : j < 32) :
    (0xFFFF0EFF#32).getLsbD j = !(decide (j = 8) || decide (12 ≤ j ∧ j < 16)) := by
  revert hj; revert j; decide

theorem clearError_eq (st : Word) : St.clearError st = st &&& 0xFFFF0EFF#32 := by
  apply BitVec.eq_of_getLsbD_eq
  intro j hj
  rw [getLsbD_clearError, BitVec.getLsbD_and, getLsbD_errorMask j hj]
  by_cases h1 : 12 ≤ j ∧ j < 16
  · simp [h1]
  · by_cases h8 : j = 8 <;> simp [h1, h8]

/-- Raising an error is what rule R97 says, in the terms claims use. -/
theorem raiseError_eq (c : ErrCode) (s : State) : raiseError c s = afterError (ErrCode.ecode c).toNat s := by
  have hst : St.withError s.st c =
      if s.st.getLsbD 8 then s.st
      else (s.st &&& 0xFFFF0EFF#32) ||| BitVec.ofNat 32 (0x100 + 4096 * (ErrCode.ecode c).toNat) := by
    cases he : St.err s.st
    · have he' : s.st.getLsbD 8 = false := he
      rw [he']
      simp only [Bool.false_eq_true, if_false]
      apply BitVec.eq_of_getLsbD_eq
      intro j hj
      rw [getLsbD_withError_first he, BitVec.getLsbD_or, BitVec.getLsbD_and, getLsbD_errorMask j hj]
      have a2 : (BitVec.ofNat 32 (0x100 + 4096 * (ErrCode.ecode c).toNat)).getLsbD j =
          (decide (j = 8) || (decide (12 ≤ j ∧ j < 16) && (ErrCode.ecode c).getLsbD (j - 12))) := by
        revert hj; revert j; cases c <;> decide
      rw [a2]
      by_cases h1 : 12 ≤ j ∧ j < 16
      · have h8 : j ≠ 8 := by omega
        simp [h1, h8]
      · by_cases h8 : j = 8 <;> simp [h1, h8]
    · have he' : s.st.getLsbD 8 = true := he
      rw [withError_later he, he']
      simp
  apply State.eq_of_fields <;> first | exact hst | rfl

/-- TPARSE's status word, bit by bit. -/
theorem getLsbD_tagStatus (st : Word) (tok exh cons skip : Bool) (j : Nat) :
    (tagStatus st tok exh cons skip).getLsbD j =
      if j = 1 then skip else if j = 3 then cons else if j = 0 then exh else if j = 2 then tok else st.getLsbD j := by
  rw [← withTagFlags_eq, getLsbD_withTagFlags]

/-- LPARSE's status word, bit by bit. -/
theorem getLsbD_lenStatus (st : Word) (lok linv exh llong : Bool) (j : Nat) :
    (lenStatus st lok linv exh llong).getLsbD j =
      if j = 6 then llong else if j = 0 then exh else if j = 5 then linv else if j = 4 then lok else st.getLsbD j := by
  rw [← withLenFlags_eq, getLsbD_withLenFlags]

section Fields
variable (st : Word) (a b c d : Bool)

@[simp] theorem tok_tagStatus : St.tok (tagStatus st a b c d) = a := getLsbD_tagStatus ..
@[simp] theorem exh_tagStatus : St.exh (tagStatus st a b c d) = b := getLsbD_tagStatus ..
@[simp] theorem cons_tagStatus : St.cons (tagStatus st a b c d) = c := getLsbD_tagStatus ..
@[simp] theorem skip_tagStatus : St.skip (tagStatus st a b c d) = d := getLsbD_tagStatus ..
@[simp] theorem lok_tagStatus : St.lok (tagStatus st a b c d) = St.lok st := getLsbD_tagStatus ..
@[simp] theorem linv_tagStatus : St.linv (tagStatus st a b c d) = St.linv st := getLsbD_tagStatus ..
@[simp] theorem llong_tagStatus : St.llong (tagStatus st a b c d) = St.llong st := getLsbD_tagStatus ..
@[simp] theorem err_tagStatus : St.err (tagStatus st a b c d) = St.err st := getLsbD_tagStatus ..
@[simp] theorem lok_lenStatus : St.lok (lenStatus st a b c d) = a := getLsbD_lenStatus ..
@[simp] theorem linv_lenStatus : St.linv (lenStatus st a b c d) = b := getLsbD_lenStatus ..
@[simp] theorem exh_lenStatus : St.exh (lenStatus st a b c d) = c := getLsbD_lenStatus ..
@[simp] theorem llong_lenStatus : St.llong (lenStatus st a b c d) = d := getLsbD_lenStatus ..
@[simp] theorem tok_lenStatus : St.tok (lenStatus st a b c d) = St.tok st := getLsbD_lenStatus ..
@[simp] theorem cons_lenStatus : St.cons (lenStatus st a b c d) = St.cons st := getLsbD_lenStatus ..
@[simp] theorem err_lenStatus : St.err (lenStatus st a b c d) = St.err st := getLsbD_lenStatus ..

@[simp] theorem ecode_tagStatus : St.ecode (tagStatus st a b c d) = St.ecode st := by
  apply BitVec.eq_of_getLsbD_eq
  intro j hj
  simp only [St.ecode, BitVec.getLsbD_extractLsb', hj, decide_true, Bool.true_and, getLsbD_tagStatus]
  rw [if_neg (by omega), if_neg (by omega), if_neg (by omega), if_neg (by omega)]

@[simp] theorem ecode_lenStatus : St.ecode (lenStatus st a b c d) = St.ecode st := by
  apply BitVec.eq_of_getLsbD_eq
  intro j hj
  simp only [St.ecode, BitVec.getLsbD_extractLsb', hj, decide_true, Bool.true_and, getLsbD_lenStatus]
  rw [if_neg (by omega), if_neg (by omega), if_neg (by omega), if_neg (by omega)]

end Fields

@[simp] theorem err_withError (st : Word) (c : ErrCode) : St.err (St.withError st c) = true := by
  by_cases h : St.err st = true
  · rw [withError_later h, h]
  · unfold St.err
    rw [getLsbD_withError_first (by simpa using h)]
    simp

theorem ecode_withError_first {st : Word} (h : St.err st = false) (c : ErrCode) :
    St.ecode (St.withError st c) = ErrCode.ecode c := by
  apply BitVec.eq_of_getLsbD_eq
  intro j hj
  simp only [St.ecode, BitVec.getLsbD_extractLsb', hj, decide_true, Bool.true_and]
  rw [getLsbD_withError_first h, if_pos (by omega)]
  simp

@[simp] theorem err_clearError (st : Word) : St.err (St.clearError st) = false := by
  unfold St.err
  rw [getLsbD_clearError]
  simp

@[simp] theorem ecode_clearError (st : Word) : St.ecode (St.clearError st) = 0 := by
  apply BitVec.eq_of_getLsbD_eq
  intro j hj
  simp only [St.ecode, BitVec.getLsbD_extractLsb', hj, decide_true, Bool.true_and]
  rw [getLsbD_clearError, if_pos (by omega)]
  simp

end Sys2Proof.Machine
end

