-- ==== Sys2Proof/Laws/Memory.lean ====
section
/-! SUPPORT. The input buffer: what a write and a read give, and that every memory operation keeps the canonical
form. -/

namespace Sys2Proof.Machine

theorem cellAt_of_not_mem : ∀ (cs : List Host.Cell) (a : Nat), (∀ c ∈ cs, c.1 ≠ a) → cellAt cs a = Config.unlistedByte
  | [], _, _ => rfl
  | c :: cs, a, h => by
    have h1 : c.1 ≠ a := h c (by simp)
    simp only [cellAt, h1, if_false]
    exact cellAt_of_not_mem cs a (fun d hd => h d (by simp [hd]))

theorem putCell_before {c : Host.Cell} {a : Nat} (h : c.1 < a) (cs : List Host.Cell) (b : Byte) :
    putCell (c :: cs) a b = c :: putCell cs a b := by simp only [putCell, h, if_true]

theorem putCell_at {c : Host.Cell} {a : Nat} (h : c.1 = a) (cs : List Host.Cell) (b : Byte) :
    putCell (c :: cs) a b = if b = Config.unlistedByte then cs else (a, b) :: cs := by
  have : ¬ c.1 < a := by omega
  simp only [putCell, this, if_false, if_pos h]

theorem putCell_after {c : Host.Cell} {a : Nat} (h : a < c.1) (cs : List Host.Cell) (b : Byte) :
    putCell (c :: cs) a b = if b = Config.unlistedByte then c :: cs else (a, b) :: c :: cs := by
  have h1 : ¬ c.1 < a := by omega
  have h2 : ¬ c.1 = a := by omega
  simp only [putCell, h1, if_false, h2]

/-- A read of another address gives what it gave before the write. -/
theorem cellAt_putCell_other {a x : Nat} (hx : x ≠ a) (b : Byte) :
    ∀ cs : List Host.Cell, cellAt (putCell cs a b) x = cellAt cs x
  | [] => by by_cases hb : b = Config.unlistedByte <;> simp [putCell, cellAt, hb, Ne.symm hx]
  | c :: cs => by
    have ih := cellAt_putCell_other hx b cs
    rcases Nat.lt_trichotomy c.1 a with h | h | h
    · simp only [putCell_before h, cellAt, ih]
    · have h3 : ¬ c.1 = x := fun h' => hx (h'.symm.trans h)
      rw [putCell_at h]
      by_cases hb : b = Config.unlistedByte <;> simp [cellAt, hb, h3, Ne.symm hx]
    · rw [putCell_after h]
      by_cases hb : b = Config.unlistedByte <;> simp [cellAt, hb, Ne.symm hx]

/-- A read of the written address gives the written byte. -/
theorem cellAt_putCell_same (a : Nat) (b : Byte) :
    ∀ cs : List Host.Cell, cs.Pairwise (fun c d => c.1 < d.1) → cellAt (putCell cs a b) a = b
  | [], _ => by by_cases hb : b = Config.unlistedByte <;> simp [putCell, cellAt, hb]
  | c :: cs, hs => by
    obtain ⟨hc, hs'⟩ := List.pairwise_cons.mp hs
    have ih := cellAt_putCell_same a b cs hs'
    rcases Nat.lt_trichotomy c.1 a with h | h | h
    · have h2 : ¬ c.1 = a := by omega
      simp only [putCell_before h, cellAt, h2, if_false, ih]
    · have hbig : ∀ d ∈ cs, d.1 ≠ a := fun d hd => by have := hc d hd; omega
      rw [putCell_at h]
      by_cases hb : b = Config.unlistedByte
      · simp [hb, cellAt_of_not_mem cs a hbig]
      · simp [cellAt, hb]
    · have hbig : ∀ d ∈ c :: cs, d.1 ≠ a := fun d hd => by
        rcases List.mem_cons.mp hd with rfl | hd
        · omega
        · have := hc d hd; omega
      rw [putCell_after h]
      by_cases hb : b = Config.unlistedByte
      · rw [if_pos hb, cellAt_of_not_mem _ a hbig, hb]
      · simp [cellAt, hb]

/-- Every cell after a write is the written one or was there before. -/
theorem mem_putCell {a : Nat} {b : Byte} {c : Host.Cell} :
    ∀ {cs : List Host.Cell}, c ∈ putCell cs a b → c ∈ cs ∨ (c = (a, b) ∧ b ≠ Config.unlistedByte)
  | [], h => by
    by_cases hb : b = Config.unlistedByte
    · simp [putCell, hb] at h
    · simp only [putCell, hb, if_false, List.mem_singleton] at h
      exact .inr ⟨h, hb⟩
  | d :: cs, hmem => by
    rcases Nat.lt_trichotomy d.1 a with h | h | h
    · rw [putCell_before h] at hmem
      rcases List.mem_cons.mp hmem with rfl | hmem
      · exact .inl (by simp)
      · exact (mem_putCell hmem).imp (List.mem_cons_of_mem _) id
    · rw [putCell_at h] at hmem
      by_cases hb : b = Config.unlistedByte
      · rw [if_pos hb] at hmem
        exact .inl (List.mem_cons_of_mem _ hmem)
      · rw [if_neg hb] at hmem
        rcases List.mem_cons.mp hmem with rfl | hmem
        · exact .inr ⟨rfl, hb⟩
        · exact .inl (List.mem_cons_of_mem _ hmem)
    · rw [putCell_after h] at hmem
      by_cases hb : b = Config.unlistedByte
      · rw [if_pos hb] at hmem
        exact .inl hmem
      · rw [if_neg hb] at hmem
        rcases List.mem_cons.mp hmem with rfl | hmem
        · exact .inr ⟨rfl, hb⟩
        · exact .inl hmem

theorem pairwise_putCell (a : Nat) (b : Byte) :
    ∀ cs : List Host.Cell, cs.Pairwise (fun c d => c.1 < d.1) → (putCell cs a b).Pairwise (fun c d => c.1 < d.1)
  | [], _ => by by_cases hb : b = Config.unlistedByte <;> simp [putCell, hb]
  | c :: cs, hs => by
    obtain ⟨hc, hs'⟩ := List.pairwise_cons.mp hs
    have ih := pairwise_putCell a b cs hs'
    rcases Nat.lt_trichotomy c.1 a with h | h | h
    · rw [putCell_before h]
      refine List.pairwise_cons.mpr ⟨fun d hd => ?_, ih⟩
      rcases mem_putCell hd with hd | ⟨rfl, -⟩
      · exact hc d hd
      · exact h
    · rw [putCell_at h]
      by_cases hb : b = Config.unlistedByte
      · rw [if_pos hb]; exact hs'
      · rw [if_neg hb]
        exact List.pairwise_cons.mpr ⟨fun d hd => h ▸ hc d hd, hs'⟩
    · rw [putCell_after h]
      by_cases hb : b = Config.unlistedByte
      · rw [if_pos hb]; exact hs
      · rw [if_neg hb]
        refine List.pairwise_cons.mpr ⟨fun d hd => ?_, hs⟩
        rcases List.mem_cons.mp hd with rfl | hd
        · exact h
        · exact Nat.lt_trans h (hc d hd)

theorem mem_putAddr {a x : Nat} : ∀ {l : List Nat}, x ∈ putAddr l a ↔ x = a ∨ x ∈ l
  | [] => by simp [putAddr]
  | y :: l => by
    have ih := @mem_putAddr a x l
    by_cases h1 : y < a
    · simp only [putAddr, h1, if_true, List.mem_cons, ih, or_left_comm]
    · by_cases h2 : y = a
      · subst h2; simp [putAddr]
      · simp only [putAddr, h1, h2, if_false, List.mem_cons]

theorem pairwise_putAddr (a : Nat) : ∀ l : List Nat, l.Pairwise (· < ·) → (putAddr l a).Pairwise (· < ·)
  | [], _ => by simp [putAddr]
  | y :: l, h => by
    obtain ⟨hy, hl⟩ := List.pairwise_cons.mp h
    have ih := pairwise_putAddr a l hl
    by_cases h1 : y < a
    · simp only [putAddr, h1, if_true]
      refine List.pairwise_cons.mpr ⟨fun d hd => ?_, ih⟩
      rcases mem_putAddr.mp hd with rfl | hd
      · exact h1
      · exact hy d hd
    · by_cases h2 : y = a
      · simp only [putAddr, h1, if_false, if_pos h2]; exact h
      · simp only [putAddr, h1, h2, if_false]
        refine List.pairwise_cons.mpr ⟨fun d hd => ?_, h⟩
        rcases List.mem_cons.mp hd with rfl | hd
        · omega
        · have := hy d hd; omega

/-- What the host's write gives: IN has a byte there, and that byte is put. -/
theorem Memory.write_eq_some {m m' : Memory} {a : Nat} {b : Byte} :
    m.write a b = some m' ↔ a < m.size ∧ m' = { m with cells := putCell m.cells a b } := by
  unfold Memory.write
  by_cases h : m.size ≤ a
  · rw [if_pos h]
    constructor
    · intro h'; cases h'
    · intro h'; have := h'.1; omega
  · rw [if_neg h]
    exact ⟨fun h' => ⟨by omega, (Option.some.inj h').symm⟩, fun h' => congrArg some h'.2.symm⟩

theorem Memory.write_wf {m m' : Memory} {a : Nat} {b : Byte} (h : m.write a b = some m') (hw : m.wf) : m'.wf := by
  obtain ⟨ha, rfl⟩ := Memory.write_eq_some.mp h
  obtain ⟨h1, h2, h3, h4, h5⟩ := hw
  refine ⟨h1, pairwise_putCell a b _ h2, fun c hc => ?_, h4, h5⟩
  rcases mem_putCell hc with hc | ⟨rfl, hb⟩
  · exact h3 c hc
  · exact ⟨ha, hb⟩

theorem Memory.writeAll_wf : ∀ {ws : List Host.Cell} {m m' : Memory}, m.writeAll ws = some m' → m.wf → m'.wf
  | [], m, m', h, hw => by simp only [Memory.writeAll, Option.some.injEq] at h; exact h ▸ hw
  | c :: cs, m, m', h, hw => by
    unfold Memory.writeAll at h
    split at h
    · cases h
    · exact Memory.writeAll_wf h (Memory.write_wf ‹_› hw)

theorem Memory.writeAll_inside : ∀ {ws : List Host.Cell} {m m' : Memory}, m.writeAll ws = some m' →
    ∀ c ∈ ws, c.1 < m.size
  | [], m, m', _, c, hc => by simp at hc
  | d :: ds, m, m', h, c, hc => by
    unfold Memory.writeAll at h
    split at h
    · cases h
    · rename_i m1 h1
      obtain ⟨ha, rfl⟩ := Memory.write_eq_some.mp h1
      rcases List.mem_cons.mp hc with rfl | hc
      · exact ha
      · exact Memory.writeAll_inside h c hc

theorem mem_foldl_putAddr {x : Nat} : ∀ {ws : List Host.Cell} {l : List Nat},
    x ∈ ws.foldl (fun l c => putAddr l c.1) l ↔ x ∈ l ∨ ∃ c ∈ ws, c.1 = x
  | [], l => by simp
  | c :: cs, l => by
    rw [List.foldl_cons, mem_foldl_putAddr, mem_putAddr]
    constructor
    · rintro ((rfl | h) | ⟨d, hd, rfl⟩)
      · exact .inr ⟨c, by simp, rfl⟩
      · exact .inl h
      · exact .inr ⟨d, by simp [hd], rfl⟩
    · rintro (h | ⟨d, hd, rfl⟩)
      · exact .inl (.inr h)
      · rcases List.mem_cons.mp hd with rfl | hd
        · exact .inl (.inl rfl)
        · exact .inr ⟨d, hd, rfl⟩

theorem pairwise_foldl_putAddr : ∀ (ws : List Host.Cell) (l : List Nat), l.Pairwise (· < ·) →
    (ws.foldl (fun l c => putAddr l c.1) l).Pairwise (· < ·)
  | [], _, h => h
  | _ :: cs, _, h => pairwise_foldl_putAddr cs _ (pairwise_putAddr _ _ h)

/-- An address reads erratically during a race when it did before or is written. -/
theorem Memory.mem_disturb {m : Memory} {ws : List Host.Cell} {x : Nat} :
    x ∈ (m.disturb ws).erratic ↔ x ∈ m.erratic ∨ ∃ c ∈ ws, c.1 = x := mem_foldl_putAddr

theorem Memory.disturb_wf {m : Memory} {ws : List Host.Cell} (hw : m.wf) (hin : ∀ c ∈ ws, c.1 < m.size) :
    (m.disturb ws).wf := by
  obtain ⟨h1, h2, h3, h4, h5⟩ := hw
  refine ⟨h1, h2, h3, pairwise_foldl_putAddr ws _ h4, fun x hx => ?_⟩
  rcases Memory.mem_disturb.mp hx with hx | ⟨c, hc, rfl⟩
  · exact h5 x hx
  · exact hin c hc

@[simp] theorem Memory.disturb_size (m : Memory) (ws : List Host.Cell) : (m.disturb ws).size = m.size := rfl
@[simp] theorem Memory.disturb_byteAt (m : Memory) (ws : List Host.Cell) (a : Nat) :
    (m.disturb ws).byteAt a = m.byteAt a := rfl

/-- MemRead raises ACCESS exactly at or above INSIZE (rule R35). -/
theorem Memory.read_eq_none {m : Memory} {a d : Nat} : m.read a d = none ↔ m.size ≤ a := by
  unfold Memory.read
  by_cases h : m.size ≤ a
  · simp [h]
  · by_cases he : a ∈ m.erratic <;> simp [h, he]

/-- A read inside IN gives the byte there, or a free byte where a duty is broken (rules R35, R118). -/
theorem Memory.read_inside {m : Memory} {a : Nat} (h : a < m.size) (d : Nat) :
    m.read a d = if a ∈ m.erratic then some (Config.freeByte d, d + 1) else some (m.byteAt a, d) := by
  have : ¬ m.size ≤ a := by omega
  simp [Memory.read, this]

end Sys2Proof.Machine
end

