-- ==== Sys2Proof/Laws/Parser.lean ====
section
/-! SUPPORT. What a read at the cursor gives (rules R34, R35, R76), what the skip loop finds (rule R81) and what the
value bytes of a long form give (rule R84), each in terms of the bytes of the range. -/

namespace Sys2Proof.Machine

/-- The state after `n` reads at the cursor. -/
def State.advance (s : State) (n : Nat) : State :=
  (s.setCur (s.cur + BitVec.ofNat 32 n)).setDraws (s.draws + erraticReads s n)

@[simp] theorem State.advance_cur (s : State) (n : Nat) : (s.advance n).cur = s.cur + BitVec.ofNat 32 n := rfl
@[simp] theorem State.advance_endr (s : State) (n : Nat) : (s.advance n).endr = s.endr := rfl
@[simp] theorem State.advance_tag (s : State) (n : Nat) : (s.advance n).tag = s.tag := rfl
@[simp] theorem State.advance_len (s : State) (n : Nat) : (s.advance n).len = s.len := rfl
@[simp] theorem State.advance_st (s : State) (n : Nat) : (s.advance n).st = s.st := rfl
@[simp] theorem State.advance_mem (s : State) (n : Nat) : (s.advance n).mem = s.mem := rfl
@[simp] theorem State.advance_port (s : State) (n : Nat) : (s.advance n).port = s.port := rfl
@[simp] theorem State.advance_resp (s : State) (n : Nat) : (s.advance n).resp = s.resp := rfl
@[simp] theorem State.advance_draws (s : State) (n : Nat) :
    (s.advance n).draws = s.draws + erraticReads s n := rfl

@[simp] theorem erraticReads_zero (s : State) : erraticReads s 0 = 0 := rfl

theorem erraticReads_succ (s : State) (n : Nat) :
    erraticReads s (n + 1) = erraticReads s n + natOf (decide (s.cur.toNat + n ∈ s.mem.erratic)) := by
  unfold erraticReads natOf
  rw [List.range_succ, List.countP_append, List.countP_singleton]

@[simp] theorem State.advance_zero (s : State) : s.advance 0 = s := by
  apply State.eq_of_fields <;> simp

/-- The cursor does not wrap while the range lasts (rule R17). -/
theorem toNat_advance {s : State} {n : Nat} (h : n ≤ s.rangeLen) :
    (s.cur + BitVec.ofNat 32 n).toNat = s.cur.toNat + n := by
  have h1 := s.endr.isLt
  have h2 := s.cur.isLt
  unfold State.rangeLen at h
  rw [BitVec.toNat_add, BitVec.toNat_ofNat]
  omega

theorem length_rangeBytes (s : State) :
    (rangeBytes s).length = min s.endr.toNat s.mem.size - s.cur.toNat := by
  simp [rangeBytes]

theorem length_rangeBytes_le (s : State) : (rangeBytes s).length ≤ s.rangeLen := by
  rw [length_rangeBytes]; unfold State.rangeLen; omega

@[simp] theorem getElem_rangeBytes (s : State) (n : Nat) (h : n < (rangeBytes s).length) :
    (rangeBytes s)[n] = rangeByte s n := by
  simp [rangeBytes]

theorem drop_rangeBytes {s : State} {n : Nat} (h : n < (rangeBytes s).length) :
    (rangeBytes s).drop n = rangeByte s n :: (rangeBytes s).drop (n + 1) := by
  rw [List.drop_eq_getElem_cons h, getElem_rangeBytes]

/-- The `n`-th read of a parse command: exhausted when the range has no more bytes, ACCESS when IN has none, else the
byte, the cursor one further. -/
theorem nextByte_advance {s : State} {n : Nat} (h : n ≤ s.rangeLen) :
    nextByte (s.advance n) =
      if s.rangeLen ≤ n then .exhausted
      else if (rangeBytes s).length ≤ n then .access
      else .byte (rangeByte s n) (s.advance (n + 1)) := by
  have hcur := toNat_advance h
  have he := s.endr.isLt
  have hlen : s.rangeLen = s.endr.toNat - s.cur.toNat := rfl
  unfold nextByte
  have hge : (s.advance n).endr ≤ (s.advance n).cur ↔ s.rangeLen ≤ n := by
    rw [State.advance_endr, State.advance_cur, BitVec.le_def, hcur]; omega
  by_cases h1 : s.rangeLen ≤ n
  · rw [if_pos h1, if_pos (hge.mpr h1)]
  · rw [if_neg h1, if_neg (fun h => h1 (hge.mp h))]
    rw [State.advance_mem, State.advance_draws, State.advance_cur, hcur, length_rangeBytes]
    by_cases h2 : s.mem.size ≤ s.cur.toNat + n
    · rw [Memory.read_eq_none.mpr h2, if_pos (by omega)]
    · have h4 : ¬ min s.endr.toNat s.mem.size - s.cur.toNat ≤ n := by omega
      rw [Memory.read_inside (by omega), if_neg h4]
      have hstep : ∀ d, d = s.draws + erraticReads s (n + 1) →
          ((s.advance n).setCur (s.cur + BitVec.ofNat 32 n + 1)).setDraws d = s.advance (n + 1) := by
        intro d hd
        have hw : s.cur + BitVec.ofNat 32 n + 1 = s.cur + BitVec.ofNat 32 (n + 1) := by
          rw [BitVec.add_assoc, BitVec.ofNat_add]; rfl
        apply State.eq_of_fields <;> first | exact hw | exact hd | rfl
      by_cases h3 : s.cur.toNat + n ∈ s.mem.erratic
      · have hd : s.draws + erraticReads s n + 1 = s.draws + erraticReads s (n + 1) := by
          rw [erraticReads_succ]; simp [natOf, h3]; omega
        simp only [if_pos h3]
        rw [hstep _ hd]
        simp [rangeByte, h3]
      · have hd : s.draws + erraticReads s n = s.draws + erraticReads s (n + 1) := by
          rw [erraticReads_succ]; simp [natOf, h3]
        simp only [if_neg h3]
        rw [hstep _ hd]
        simp [rangeByte, h3]

/-- The first read of a parse command. -/
theorem nextByte_start (s : State) :
    nextByte s =
      if s.rangeLen ≤ 0 then .exhausted
      else if (rangeBytes s).length ≤ 0 then .access
      else .byte (rangeByte s 0) (s.advance 1) := by
  simpa using nextByte_advance (s := s) (n := 0) (Nat.zero_le _)

@[simp] theorem tagValid_first (b : Byte) : tagValid b .first = !(b == 0) := by
  unfold tagValid
  by_cases h : b = 0#8
  · simp [h]
  · have hb : (b == 0) = false := by simpa using h
    rw [hb]; simp [h]

/-- The skip loop from the `n`-th byte on: the leading 0x00 bytes are consumed, and the first other byte is found, or
the range or IN ends before one (rule R81). -/
theorem findFirst_advance {s : State} :
    ∀ {fuel n : Nat} (skipped : Bool), n ≤ (rangeBytes s).length → s.rangeLen - n ≤ fuel →
      findFirst fuel skipped (s.advance n) =
        match ((rangeBytes s).drop n).dropWhile (· == 0) with
        | [] =>
          if (rangeBytes s).length < s.rangeLen then .access (s.advance (rangeBytes s).length)
          else .exhausted (skipped || decide (n < (rangeBytes s).length)) (s.advance (rangeBytes s).length)
        | b1 :: _ =>
          .found b1 (skipped || decide (0 < (((rangeBytes s).drop n).takeWhile (· == 0)).length))
            (s.advance (n + (((rangeBytes s).drop n).takeWhile (· == 0)).length + 1))
  | 0, n, skipped, hn, hf => by
    have hle := length_rangeBytes_le s
    have h1 : n = (rangeBytes s).length := by omega
    have h2 : ¬ (rangeBytes s).length < s.rangeLen := by omega
    subst h1
    simp only [List.drop_length, List.dropWhile_nil, if_neg h2, findFirst]
    simp
  | fuel + 1, n, skipped, hn, hf => by
    have hle := length_rangeBytes_le s
    unfold findFirst
    rw [nextByte_advance (by omega)]
    by_cases h1 : s.rangeLen ≤ n
    · have h2 : n = (rangeBytes s).length := by omega
      have h3 : ¬ (rangeBytes s).length < s.rangeLen := by omega
      rw [if_pos h1]
      subst h2
      simp only [List.drop_length, List.dropWhile_nil, if_neg h3]
      simp
    · rw [if_neg h1]
      by_cases h2 : (rangeBytes s).length ≤ n
      · have h3 : n = (rangeBytes s).length := by omega
        rw [if_pos h2]
        subst h3
        simp only [List.drop_length, List.dropWhile_nil]
        rw [if_pos (by omega)]
      · rw [if_neg h2]
        have hd := drop_rangeBytes (s := s) (n := n) (by omega)
        simp only [tagValid_first]
        by_cases h0 : rangeByte s n = 0
        · have ih := findFirst_advance (s := s) (fuel := fuel) (n := n + 1) true (by omega) (by omega)
          simp only [h0, BEq.rfl, Bool.not_true, Bool.false_eq_true, if_false, ih]
          rw [hd, h0, List.dropWhile_cons_of_pos (by simp), List.takeWhile_cons_of_pos (by simp)]
          split
          · rw [Bool.true_or, decide_eq_true (by omega : n < (rangeBytes s).length), Bool.or_true]
          · simp only [List.length_cons, Bool.true_or]
            rw [decide_eq_true (by omega), Bool.or_true]
            congr 2
            omega
        · have hb : (rangeByte s n == 0) = false := by simpa using h0
          simp only [hb, Bool.not_false, if_true]
          rw [hd, List.dropWhile_cons_of_neg (by rw [hb]; simp), List.takeWhile_cons_of_neg (by rw [hb]; simp)]
          simp

/-- The value bytes of a long form from the `k`-th byte on (rules R83, R84): LEN is the big-endian value when the range
and IN hold `n` more bytes, else the range or IN ends first. -/
theorem longLength_advance {s : State} :
    ∀ {n k : Nat} (acc : Word), k ≤ (rangeBytes s).length →
      longLength s n acc (s.advance k) =
        if n ≤ (rangeBytes s).length - k then
          lenDone (((rangeBytes s).drop k |>.take n).foldl accByte acc) true (s.advance (k + n))
        else if (rangeBytes s).length < s.rangeLen then raiseAccess s (s.advance (rangeBytes s).length)
        else lenExhausted true (s.advance (rangeBytes s).length)
  | 0, k, acc, hk => by simp [longLength]
  | n + 1, k, acc, hk => by
    have hle := length_rangeBytes_le s
    unfold longLength
    rw [nextByte_advance (by omega)]
    by_cases h1 : s.rangeLen ≤ k
    · have h2 : k = (rangeBytes s).length := by omega
      rw [if_pos h1, if_neg (by omega), if_neg (by omega), ← h2]
    · rw [if_neg h1]
      by_cases h2 : (rangeBytes s).length ≤ k
      · have h3 : k = (rangeBytes s).length := by omega
        rw [if_pos h2, if_neg (by omega), if_pos (by omega), ← h3]
      · rw [if_neg h2]
        have ih := longLength_advance (s := s) (n := n) (k := k + 1) (accByte acc (rangeByte s k)) (by omega)
        simp only [ih]
        rw [drop_rangeBytes (s := s) (n := k) (by omega), List.take_succ_cons, List.foldl_cons]
        by_cases h3 : n + 1 ≤ (rangeBytes s).length - k
        · rw [if_pos h3, if_pos (by omega), Nat.add_assoc, Nat.add_comm 1 n]
        · rw [if_neg h3, if_neg (by omega)]

end Sys2Proof.Machine
end

