-- ==== Sys2Proof/Laws/Fields.lean ====
section
/-! SUPPORT. The tag and length fields as functions of a list of bytes (rules R79, R84): their forms, that bytes after a
whole field do not change it, how far they reach, and the bytes of a range of plain memory. -/

namespace Sys2Proof.Machine

/-- The three forms of a tag field (rule R79). -/
theorem tagField_cases {bs tb : List Byte} (h : tagField bs = some tb) :
    (∃ b1 r, bs = b1 :: r ∧ tb = [b1] ∧ b1.toNat % 32 ≠ 31) ∨
    (∃ b1 b2 r, bs = b1 :: b2 :: r ∧ tb = [b1, b2] ∧ b1.toNat % 32 = 31 ∧ b2.toNat < 128) ∨
    (∃ b1 b2 b3 r, bs = b1 :: b2 :: b3 :: r ∧ tb = [b1, b2, b3] ∧ b1.toNat % 32 = 31 ∧ ¬ b2.toNat < 128) := by
  match bs, h with
  | [], h => cases h
  | b1 :: r, h =>
    unfold tagField at h
    by_cases h1 : b1.toNat % 32 = 31
    · simp only [h1, ne_eq, not_true_eq_false, if_false] at h
      match r, h with
      | [], h => cases h
      | [b2], h =>
        by_cases h2 : b2.toNat < 128
        · simp only [h2, if_true, Option.some.injEq] at h
          exact .inr (.inl ⟨b1, b2, [], rfl, h.symm, h1, h2⟩)
        · simp only [h2, if_false] at h
          cases h
      | b2 :: b3 :: r, h =>
        by_cases h2 : b2.toNat < 128
        · simp only [h2, if_true, Option.some.injEq] at h
          exact .inr (.inl ⟨b1, b2, _, rfl, h.symm, h1, h2⟩)
        · simp only [h2, if_false, Option.some.injEq] at h
          exact .inr (.inr ⟨b1, b2, b3, r, rfl, h.symm, h1, h2⟩)
    · simp only [h1, ne_eq, not_false_eq_true, if_true, Option.some.injEq] at h
      exact .inl ⟨b1, r, rfl, h.symm, h1⟩

/-- A tag field has 1 to 3 bytes. -/
theorem tagField_length {bs tb : List Byte} (h : tagField bs = some tb) : 1 ≤ tb.length ∧ tb.length ≤ 3 := by
  rcases tagField_cases h with ⟨_, _, _, rfl, _⟩ | ⟨_, _, _, _, rfl, _⟩ | ⟨_, _, _, _, _, rfl, _⟩ <;> simp

/-- Bytes after a whole tag field do not change it. -/
theorem tagField_append {tb : List Byte} (h : tagField tb = some tb) (r : List Byte) : tagField (tb ++ r) = some tb := by
  rcases tagField_cases h with ⟨b1, _, _, rfl, h1⟩ | ⟨b1, b2, _, _, rfl, h1, h2⟩ | ⟨b1, b2, b3, _, _, rfl, h1, h2⟩
  · simp [tagField, h1]
  · cases r <;> simp [tagField, h1, h2]
  · unfold tagField
    simp [h1, h2]

/-- Where a length field has a value, it has its bytes. -/
theorem lengthField_used_le {bs : List Byte} {v used : Nat} {long : Bool} (h : lengthField bs = .value v long used) :
    1 ≤ used ∧ used ≤ bs.length ∧ used ≤ 5 := by
  match bs, h with
  | [], h => cases h
  | l0 :: bs, h =>
    have h0 := l0.isLt
    unfold lengthField at h
    simp only at h
    split at h
    · injection h with _ _ hu
      rw [List.length_cons]
      omega
    · split at h
      · cases h
      · split at h
        · cases h
        · injection h with _ _ hu
          rw [List.length_cons]
          omega

/-- Bytes after a whole length field do not change it. -/
theorem lengthField_append {lb : List Byte} {v : Nat} {long : Bool} (h : lengthField lb = .value v long lb.length)
    (r : List Byte) : lengthField (lb ++ r) = .value v long lb.length := by
  match lb, h with
  | [], h => cases h
  | l0 :: bs, h =>
    rw [List.cons_append]
    unfold lengthField at h ⊢
    simp only at h ⊢
    split at h
    · rename_i h1
      rw [if_pos h1]
      exact h
    · rename_i h1
      rw [if_neg h1]
      split at h
      · cases h
      · rename_i h2
        rw [if_neg h2]
        split at h
        · cases h
        · rename_i h3
          rw [if_neg (by rw [List.length_append]; omega), List.take_append_of_le_length (by omega)]
          exact h

/-- The leading 0x00 bytes of a list that goes on with another byte. -/
theorem takeWhile_replicate {b : Byte} (hb : b ≠ 0) (r : List Byte) :
    ∀ k, (List.replicate k 0 ++ b :: r).takeWhile (· == 0) = List.replicate k 0
  | 0 => by
    have h : (b == 0) = false := by simpa using hb
    simp only [List.replicate_zero, List.nil_append]
    rw [List.takeWhile_cons_of_neg (by rw [h]; simp)]
  | k + 1 => by
    rw [List.replicate_succ, List.cons_append, List.takeWhile_cons_of_pos (by simp), takeWhile_replicate hb r k]

/-- What follows the leading 0x00 bytes. -/
theorem dropWhile_replicate {b : Byte} (hb : b ≠ 0) (r : List Byte) :
    ∀ k, (List.replicate k 0 ++ b :: r).dropWhile (· == 0) = b :: r
  | 0 => by
    have h : (b == 0) = false := by simpa using hb
    simp only [List.replicate_zero, List.nil_append]
    rw [List.dropWhile_cons_of_neg (by rw [h]; simp)]
  | k + 1 => by
    rw [List.replicate_succ, List.cons_append, List.dropWhile_cons_of_pos (by simp), dropWhile_replicate hb r k]

@[simp] theorem length_bytesBetween (m : Memory) (a e : Nat) : (bytesBetween m a e).length = e - a := by
  simp [bytesBetween]

/-- The host's slice is the bytes IN holds (rule R121). -/
theorem inputBytes_eq (m : Memory) : ∀ a n, inputBytes m a n = bytesBetween m a (a + n)
  | a, 0 => by simp [inputBytes, bytesBetween]
  | a, n + 1 => by
    unfold inputBytes bytesBetween
    rw [inputBytes_eq m (a + 1) n, show a + (n + 1) - a = n + 1 by omega, List.range_succ_eq_map]
    unfold bytesBetween
    rw [show a + 1 + n - (a + 1) = n by omega]
    simp only [List.map_cons, List.map_map, Nat.add_zero]
    congr 1
    apply List.map_congr_left
    intro k _
    simp only [Function.comp, Nat.succ_eq_add_one]
    rw [show a + (k + 1) = a + 1 + k by omega]

/-- On plain memory a read of the range gives the byte IN holds. -/
theorem rangeByte_plain {s : State} (h : PlainRange s) {k : Nat} (hk : s.cur.toNat + k < s.endr.toNat) :
    rangeByte s k = s.mem.byteAt (s.cur.toNat + k) := by
  unfold rangeByte
  rw [if_neg (h _ (by omega) hk)]

/-- On plain memory no read of the range draws a free byte. -/
theorem erraticReads_plain {s : State} (h : PlainRange s) {n : Nat} (hn : n ≤ s.rangeLen) : erraticReads s n = 0 := by
  unfold State.rangeLen at hn
  unfold erraticReads
  rw [List.countP_eq_zero]
  intro k hk
  have hk' : k < n := List.mem_range.mp hk
  simpa using h _ (by omega) (by omega : s.cur.toNat + k < s.endr.toNat)

/-- On plain memory inside IN the bytes a parse command can read are those IN holds in the range. -/
theorem rangeBytes_plain {s : State} (h : PlainRange s) (he : EndInsideIn s) :
    rangeBytes s = bytesBetween s.mem s.cur.toNat s.endr.toNat := by
  unfold EndInsideIn at he
  unfold rangeBytes bytesBetween
  rw [show min s.endr.toNat s.mem.size = s.endr.toNat by omega]
  apply List.map_congr_left
  intro k hk
  have hk' : k < s.endr.toNat - s.cur.toNat := List.mem_range.mp hk
  exact rangeByte_plain h (by omega)

end Sys2Proof.Machine
end

