-- ==== Sys2Proof/Laws/PerInstr.lean ====
section
/-! SUPPORT. The family Encoding, one lemma per command: the word the encoder writes has the command's OP and 0 in the
bits of format C that no command uses, cmd[23:20] and cmd[15:10] (rules R48, R53, R60). -/

namespace Sys2Proof.Laws.Encoding

/-- The encoded word's OP is the command's, and rsvA and rsvB are 0. -/
def Statement (i : Instr) : Prop :=
  opField (encode i).1 = i.opcode ∧ (encode i).1.toNat / 2 ^ 20 % 2 ^ 4 = 0 ∧ (encode i).1.toNat / 2 ^ 10 % 2 ^ 6 = 0

theorem unusedBits (op : Byte) (rs : BitVec 4) (bn : BitVec 2) (b : Byte) :
    opField (cmdWord op rs bn b) = op ∧ (cmdWord op rs bn b).toNat / 2 ^ 20 % 2 ^ 4 = 0 ∧
      (cmdWord op rs bn b).toNat / 2 ^ 10 % 2 ^ 6 = 0 := by
  have h2 := rs.isLt
  have h3 := bn.isLt
  have h4 := b.isLt
  rw [toNat_cmdWord]
  exact ⟨opField_cmdWord .., by omega, by omega⟩

theorem tclass (b : Byte) : Statement (.tclass b) := unusedBits ..
theorem tcons (b : Byte) : Statement (.tcons b) := unusedBits ..
theorem tprim (b : Byte) : Statement (.tprim b) := unusedBits ..
theorem tmulti (b : Byte) : Statement (.tmulti b) := unusedBits ..
theorem tlast (b : Byte) : Statement (.tlast b) := unusedBits ..
theorem tvalid (b : Byte) (n : ByteNo) : Statement (.tvalid b n) := unusedBits ..
theorem tnumf (b : Byte) (n : ByteNo) : Statement (.tnumf b n) := unusedBits ..
theorem lvalid (b : Byte) : Statement (.lvalid b) := unusedBits ..
theorem lmulti (b : Byte) : Statement (.lmulti b) := unusedBits ..
theorem lgetlen (b : Byte) : Statement (.lgetlen b) := unusedBits ..
theorem tparse : Statement .tparse := unusedBits ..
theorem lparse : Statement .lparse := unusedBits ..
theorem rd (r : RegSel) : Statement (.rd r) := unusedBits ..
theorem wr (r : RegSel) (value : Word) : Statement (.wr r value) := unusedBits ..
theorem clrerr : Statement .clrerr := unusedBits ..

end Sys2Proof.Laws.Encoding
end

