-- ==== Sys2Proof/Tests/Slice0.lean ====
section
/-! SUPPORT. The model's own tests. Every expected value is the spec's: the words of 95_test_vectors.md section 2 or the
rule or table a group names; then the witnesses, one or more for each obligation with a hypothesis. -/

namespace Sys2Proof.Tests
open Sys2Proof.Machine

/-! ### Helpers -/

/-- The bytes from an address on as cells. -/
def cellsFrom : Nat → List Byte → List Host.Cell
  | _, [] => []
  | a, b :: bs => if b = 0 then cellsFrom (a + 1) bs else (a, b) :: cellsFrom (a + 1) bs

/-- A machine from reset with IN, CUR and END as given; INSIZE is the number of bytes. -/
def withIn (bs : List Byte) (cur endr : Word) : State :=
  { State.reset with cur := cur, endr := endr, mem := { size := bs.length, cells := cellsFrom 0 bs, erratic := [] } }

/-- The state after one step in which the host presents this command. -/
def after (cmd data : Word) (s : State) : State :=
  match step { s with port := [.command cmd data] } with
  | .next t => t
  | .fault _ => s
  | .refused _ => s

/-- The response of the command, from reset. -/
def answer (cmd : Word) : Option Response := (after cmd 0 State.reset).resp

/-- A response without an error, and one with. -/
def good (v : Word) : Option Response := some { rsp := v, rerr := false }
def bad : Option Response := some { rsp := 0, rerr := true }

/-! ### WellFormed smoke tests (rule R58: "An assembler refuses n = 0") -/

theorem test_tvalid_zero_ill_formed : (Instr.tvalid 0x5A .zero).wellFormed = false := by decide
theorem test_tnumf_zero_ill_formed : (Instr.tnumf 0x5A .zero).wellFormed = false := by decide
theorem test_tvalid_one_well_formed : (Instr.tvalid 0x5A .first).wellFormed = true := by decide

/-! ### Decoding: words written out from rule R54 (95_test_vectors.md section 2) -/

theorem test_decode_tclass : decodeTableWord 32 0x0100006F = some (.tclass 0x6F) := by decide
theorem test_decode_tcons : decodeTableWord 32 0x0200006F = some (.tcons 0x6F) := by decide
theorem test_decode_tprim : decodeTableWord 32 0x0300005A = some (.tprim 0x5A) := by decide
theorem test_decode_tmulti : decodeTableWord 32 0x0400009F = some (.tmulti 0x9F) := by decide
theorem test_decode_tlast : decodeTableWord 32 0x05000081 = some (.tlast 0x81) := by decide
theorem test_decode_tvalid : decodeTableWord 32 0x0600021E = some (.tvalid 0x1E .second) := by decide
theorem test_decode_tvalid_three : decodeTableWord 32 0x06000300 = some (.tvalid 0x00 .third) := by decide
theorem test_decode_tnumf : decodeTableWord 32 0x07000281 = some (.tnumf 0x81 .second) := by decide
theorem test_decode_lvalid : decodeTableWord 32 0x11000084 = some (.lvalid 0x84) := by decide
theorem test_decode_lmulti : decodeTableWord 32 0x12000082 = some (.lmulti 0x82) := by decide
theorem test_decode_lgetlen : decodeTableWord 32 0x1300007F = some (.lgetlen 0x7F) := by decide
theorem test_decode_tparse : decodeTableWord 32 0x21000000 = some .tparse := by decide
theorem test_decode_lparse : decodeTableWord 32 0x22000000 = some .lparse := by decide
theorem test_decode_rd : decodeTableWord 32 0x31040000 = some (.rd .st) := by decide
theorem test_decode_rd_undefined : decodeTableWord 32 0x310F0000 = some (.rd (.undefined 10)) := by decide
theorem test_decode_wr : decodeTableWord 64 0x0000000532010000 = some (.wr .endr 5) := by decide
theorem test_decode_clrerr : decodeTableWord 32 0x33000000 = some .clrerr := by decide
theorem test_decode_zero_word : decodeTableWord 32 0x00000000 = none := by decide
theorem test_decode_reserved_bit : decodeTableWord 32 0x0100805A = none := by decide

/-- The host's word runs as the very next step. -/
theorem test_with_fetch_word :
    step (State.reset.withFetchWord 32 0x31040000) = .next { State.reset with resp := good 0 } := rfl

/-! ### Family T (95_test_vectors.md section 3) -/

theorem test_tclass_private : answer 0x010000FF = good 3 := by decide
theorem test_tclass_context : answer 0x010000A5 = good 2 := by decide
theorem test_tcons_clear : answer 0x020000DF = good 0 := by decide
theorem test_tcons_set : answer 0x02000020 = good 1 := by decide
theorem test_tprim_clear : answer 0x030000C0 = good 1 := by decide
theorem test_tmulti_any_class : answer 0x0400009F = good 1 := by decide
theorem test_tmulti_below : answer 0x0400001E = good 0 := by decide
theorem test_tlast_set : answer 0x05000080 = good 0 := by decide
theorem test_tlast_clear : answer 0x0500007F = good 1 := by decide
theorem test_tvalid_second_exact : answer 0x0600021D = good 1 ∧ answer 0x0600021E = good 0 ∧ answer 0x06000280 = good 0 := by
  decide
theorem test_tvalid_zero_byte : answer 0x06000100 = good 0 ∧ answer 0x06000300 = good 1 := by decide
theorem test_tnumf_first : answer 0x070001A5 = good 0x05 := by decide
theorem test_tnumf_later : answer 0x070003A5 = good 0x25 := by decide

/-! ### Family L (95_test_vectors.md section 4) -/

theorem test_lvalid_short : answer 0x1100007F = good 1 ∧ answer 0x11000080 = good 0 := by decide
theorem test_lvalid_long : answer 0x11000084 = good 1 ∧ answer 0x11000085 = good 0 := by decide
theorem test_lmulti_invalid_too : answer 0x12000080 = good 1 ∧ answer 0x1200007F = good 0 := by decide
theorem test_lgetlen_invalid_too : answer 0x130000FF = good 127 := by decide

/-! ### Family P (95_test_vectors.md section 5) -/

/-- Row `0000005A` of table 5.1. -/
theorem test_tparse_skips :
    after 0x21000000 0 (withIn [0x00, 0x00, 0x00, 0x5A] 0 4) =
      { withIn [0x00, 0x00, 0x00, 0x5A] 4 4 with tag := 0x0100005A, st := 0x00000006, resp := good 0x0100005A } := by
  decide

/-- Row `9F81FF05` of table 5.1. -/
theorem test_tparse_third_byte_ends :
    after 0x21000000 0 (withIn [0x9F, 0x81, 0xFF, 0x05] 0 4) =
      { withIn [0x9F, 0x81, 0xFF, 0x05] 3 4 with tag := 0x039F81FF, st := 0x00000004, resp := good 0x039F81FF } := by
  decide

/-- Row `84FFFFFFFF` of table 5.2. -/
theorem test_lparse_maximum :
    after 0x22000000 0 (withIn [0x84, 0xFF, 0xFF, 0xFF, 0xFF] 0 5) =
      { withIn [0x84, 0xFF, 0xFF, 0xFF, 0xFF] 5 5 with
        len := 0xFFFFFFFF, st := 0x00000050, resp := good 0xFFFFFFFF } := by
  decide

/-- Row `84123456` of table 5.2. -/
theorem test_lparse_exhausted :
    after 0x22000000 0 (withIn [0x84, 0x12, 0x34, 0x56] 0 4) =
      { withIn [0x84, 0x12, 0x34, 0x56] 4 4 with st := 0x00000041, resp := good 0 } := by
  decide

/-- The ACCESS rows of tables 5.1 and 5.2: IN `5F` and IN `8201`, END 3. -/
theorem test_access_restores :
    after 0x21000000 0 (withIn [0x5F] 0 3) = { withIn [0x5F] 0 3 with st := 0x00006100, resp := bad } ∧
      after 0x22000000 0 (withIn [0x82, 0x01] 0 3) =
        { withIn [0x82, 0x01] 0 3 with st := 0x00006100, resp := bad } := by decide

/-! ### Family R (95_test_vectors.md sections 6 and 7) -/

theorem test_rd_tag : (after 0x31020000 0 { State.reset with tag := 0x02005F2A }).resp = good 0x02005F2A := by decide
theorem test_rd_undefined : after 0x31050000 0 State.reset = { State.reset with st := 0x00004100, resp := bad } := by
  decide
theorem test_wr_cur :
    after 0x32000000 0xDEADBEEF State.reset = { State.reset with cur := 0xDEADBEEF, resp := good 0 } := by decide
theorem test_wr_read_only :
    after 0x32030000 1 State.reset = { State.reset with st := 0x00005100, resp := bad } := by decide

/-- "CLRERR keeps the parse fields": ST 0x00004104 becomes 0x00000004. -/
theorem test_clrerr_keeps_parse_fields :
    after 0x33000000 0 { State.reset with st := 0x00004104 } =
      { State.reset with st := 0x00000004, resp := good 0 } := by decide

/-- Sticky error row 2 of 95_test_vectors.md section 7: a second error keeps the first code. -/
theorem test_second_error_keeps_code :
    (after 0x00000000 0 { State.reset with st := 0x00004100 }).st = 0x00004100 := by decide

/-- Rows 0x00FFFFFF and 0x32120000 of 95_test_vectors.md section 7: the earlier cause wins. -/
theorem test_earlier_cause_wins :
    (after 0x00FFFFFF 0 State.reset).st = 0x00001100 ∧ (after 0x32120000 0 State.reset).st = 0x00002100 := by decide

/-! ### The boundary, the assembler and the host's part -/

/-- Rule R111: reset during a command. -/
theorem test_reset_during :
    step { withIn [0x5A] 1 1 with tag := 0x0100005A, st := 0x00000004, port := [.resetDuring 0x22000000 0] } =
      .next (withIn [0x5A] 0 0) := rfl

/-- Rules R33, R43: a host write, kept in canonical form. -/
theorem test_host_write :
    step { withIn [0x5A, 0x00] 0 2 with port := [.hostWrite 0 0x00] } = .next (withIn [0x00, 0x00] 0 2) := rfl

/-- 95_test_vectors.md section 2. -/
theorem test_assemble_range :
    Asm.assembleLine ['R', 'A', 'N', 'G', 'E', ' ', '2', ',', ' ', '5'] =
      some [(0x32000000, 2), (0x32010000, 5)] := by decide

/-- 95_test_vectors.md section 2, with a comment (rule R58). -/
theorem test_assemble_tvalid :
    Asm.assembleLine ['T', 'V', 'A', 'L', 'I', 'D', ' ', '0', 'x', '1', 'E', ',', ' ', '2', ' ', ';', 'c'] =
      some [(0x0600021E, 0)] := by decide

/-- Rule R58: "An assembler refuses n = 0". -/
theorem test_assembler_refuses_zero :
    Asm.assembleLine ['T', 'N', 'U', 'M', 'F', ' ', '1', ',', '0'] = none := by decide

/-- Rule R20, 95_test_vectors.md W1. -/
theorem test_tag_text : tagText 0x02005F2A = some ['5', 'F', '2', 'A'] := by decide

/-- Table 5.3, row `6F035A01FF`. -/
theorem test_host_nested :
    (parseLevel 0 5 (withIn [0x6F, 0x03, 0x5A, 0x01, 0xFF] 0 0)).1 =
      .node ['6', 'F'] 3 (.leaf ['5', 'A'] 1 ['f', 'f'] .empty) .empty := by decide

/-- Rule R122's example `5A01FF5A00`: its second 5A emits no node. -/
theorem test_host_trailing :
    (parseLevel 0 5 (withIn [0x5A, 0x01, 0xFF, 0x5A, 0x00] 0 0)).1 = .leaf ['5', 'A'] 1 ['f', 'f'] .empty := by decide

/-! ### Witnesses -/

/-- A state with an error recorded and a tag held. -/
def erred : State := { withIn [0x5A, 0x01, 0xFF] 1 3 with tag := 0x0100005A, st := 0x00004104 }

theorem witness_DecodedPairEncodesBack :
    decode 0x32010000 5 = .ok (.wr .endr 5) ∧ decode 0x0100006F 77 = .ok (.tclass 0x6F) := ⟨rfl, rfl⟩

/-- The ends of each range of unlisted OPs of rule R55. -/
theorem witness_UnlistedOpcodeRaisesIllegalOpcode :
    ∀ op ∈ [0x00, 0x08, 0x10, 0x14, 0x20, 0x23, 0x30, 0x34, 0xFF],
      (BitVec.ofNat 32 (op * 2 ^ 24)).toNat / 2 ^ 24 ∉
        [0x01, 0x02, 0x03, 0x04, 0x05, 0x06, 0x07, 0x11, 0x12, 0x13, 0x21, 0x22, 0x31, 0x32, 0x33] := by decide

/-- The lowest and the highest must-be-zero bit of each row of rule R53's table. -/
theorem witness_ReservedBitSetIsNotPerformed :
    (∀ cmd ∈ [0x01000100#32, 0x13800000#32],
      cmd.toNat / 2 ^ 24 ∈ [0x01, 0x02, 0x03, 0x04, 0x05, 0x11, 0x12, 0x13] ∧ cmd.toNat / 2 ^ 8 % 2 ^ 16 ≠ 0) ∧
    (∀ cmd ∈ [0x06000400#32, 0x07800000#32],
      cmd.toNat / 2 ^ 24 ∈ [0x06, 0x07] ∧ cmd.toNat / 2 ^ 10 % 2 ^ 14 ≠ 0) ∧
    (∀ cmd ∈ [0x21000001#32, 0x33800000#32], cmd.toNat / 2 ^ 24 ∈ [0x21, 0x22, 0x33] ∧ cmd.toNat % 2 ^ 24 ≠ 0) ∧
    (∀ cmd ∈ [0x31000001#32, 0x31008000#32, 0x32100000#32, 0x32800000#32],
      cmd.toNat / 2 ^ 24 ∈ [0x31, 0x32] ∧ (cmd.toNat / 2 ^ 20 % 2 ^ 4 ≠ 0 ∨ cmd.toNat % 2 ^ 16 ≠ 0)) :=
  ⟨by simp, by simp, by simp, by simp⟩

theorem witness_FirstCauseDecidesTheError_causes :
    decodeErrorCode 0x00FFFFFF = some 1 ∧ decodeErrorCode 0x06100001 = some 2 ∧ decodeErrorCode 0x06000000 = some 3 ∧
      decodeErrorCode 0x32050000 = some 4 ∧ decodeErrorCode 0x310F0000 = some 4 ∧
      decodeErrorCode 0x32020000 = some 5 ∧ decodeErrorCode 0x32040000 = some 5 := by decide

theorem witness_FirstCauseDecidesTheError_none :
    decodeErrorCode 0x31040000 = none ∧ decodeErrorCode 0x21000000 = none ∧
      ∃ t, acceptCommand 0x21000000 0 (withIn [0x5F] 0 3) = .next t ∧ Erred t :=
  ⟨by decide, by decide, _, rfl, _, rfl, rfl⟩

theorem witness_DataIsUsedOnlyByWr :
    (0x31000000 : Word).toNat / 2 ^ 24 ≠ 0x32 ∧ (0x33000000 : Word).toNat / 2 ^ 24 ≠ 0x32 := by decide

theorem witness_StepPerformsTheDecodedCommand :
    ({ erred with port := [.command 0x22000000 7] } : State).port = .command 0x22000000 7 :: [] ∧
      decode 0x22000000 7 = .ok .lparse := ⟨rfl, rfl⟩

theorem witness_IdleTlviHoldsItsState : erred.port = [] := rfl

theorem witness_ResetClearsEveryRegister :
    ({ erred with port := [.reset] } : State).port = .reset :: [] ∧
      ({ erred with port := [.resetDuring 0x21000000 0] } : State).port = .resetDuring 0x21000000 0 :: [] := ⟨rfl, rfl⟩

/-- The first and the last byte of IN, each a plain address, and another address beside it. -/
theorem witness_HostWriteIsSeenByLaterReads :
    erred.mem.wf ∧ ({ erred with port := [.hostWrite 0 0x11] } : State).port = .hostWrite 0 0x11 :: [] ∧
      0 < erred.mem.size ∧ 0 ∉ erred.mem.erratic ∧
      ({ erred with port := [.hostWrite 2 0x00] } : State).port = .hostWrite 2 0x00 :: [] ∧
      2 < erred.mem.size ∧ 2 ∉ erred.mem.erratic ∧ (1 : Nat) ≠ 0 := by decide

/-- Two writes of one byte and one of another, during an LPARSE that reads one of them. -/
theorem witness_RacingReadsAreFreeBytes :
    erred.mem.wf ∧
      ({ erred with port := [.racing 0x22000000 0 [(1, 0x02), (1, 0x03), (2, 0x00)]] } : State).port =
        .racing 0x22000000 0 [(1, 0x02), (1, 0x03), (2, 0x00)] :: [] ∧
      (∀ c ∈ [((1 : Nat), (0x02 : Byte)), (1, 0x03), (2, 0x00)], c.1 < erred.mem.size) ∧
      (∀ c ∈ [((1 : Nat), (0x02 : Byte)), (1, 0x03), (2, 0x00)], c.1 ≠ 0) := by decide

theorem witness_OverlappingCommandsHaveNoStep :
    ({ erred with port := [.overlapping 0x21000000 0 0x22000000 0] } : State).port =
      .overlapping 0x21000000 0 0x22000000 0 :: [] := rfl

/-- Each way a step stops. -/
theorem witness_StepStopsOnlyOnAHostBreach :
    step { erred with port := [.overlapping 0x21000000 0 0x22000000 0] } = .fault .portBusy ∧
      step { erred with port := [.hostWrite 3 0x00] } = .fault .hostWriteOutsideIn ∧
      step { erred with port := [.racing 0x21000000 0 [(0, 0x01), (3, 0x01)]] } = .fault .hostWriteOutsideIn :=
  ⟨rfl, rfl, rfl⟩

/-- The ends of both forms. -/
theorem witness_ValidLengthByteHasOneMeaning :
    exec (.lvalid 0x00) erred = .next (answered 1 erred) ∧ exec (.lvalid 0x7F) erred = .next (answered 1 erred) ∧
      exec (.lvalid 0x81) erred = .next (answered 1 erred) ∧ exec (.lvalid 0x84) erred = .next (answered 1 erred) :=
  ⟨rfl, rfl, rfl, rfl⟩

theorem witness_InspectorsAreStateless :
    isInspector (.tvalid 0x1E .second) = true ∧ (Instr.tvalid 0x1E .second).wellFormed = true ∧
      isInspector (.lgetlen 0x84) = true ∧ (Instr.lgetlen 0x84).wellFormed = true := by decide

/-- IN without an address the platform does not keep. -/
theorem plain_withIn (bs : List Byte) (cur endr : Word) : PlainRange (withIn bs cur endr) := by
  intro a _ _ h
  cases h

/-- One byte and nothing skipped, three bytes after two skipped, each ending at END and INSIZE. -/
theorem witness_TparseAssemblesTheTag :
    (let s := withIn [0x5A] 0 1
     PlainRange s ∧ (∀ j, j < 0 → s.mem.byteAt (s.cur.toNat + j) = 0) ∧ s.mem.byteAt (s.cur.toNat + 0) ≠ 0 ∧
       s.cur.toNat + 0 + 1 ≤ s.endr.toNat ∧ s.cur.toNat + 0 + 1 ≤ s.mem.size ∧
       [0x5A] = (List.range 1).map (fun j => s.mem.byteAt (s.cur.toNat + 0 + j)) ∧ tagField [0x5A] = some [0x5A]) ∧
    (let s := withIn [0x00, 0x00, 0x9F, 0x81, 0xFF] 0 5
     PlainRange s ∧ (∀ j, j < 2 → s.mem.byteAt (s.cur.toNat + j) = 0) ∧ s.mem.byteAt (s.cur.toNat + 2) ≠ 0 ∧
       s.cur.toNat + 2 + 3 ≤ s.endr.toNat ∧ s.cur.toNat + 2 + 3 ≤ s.mem.size ∧
       [0x9F, 0x81, 0xFF] = (List.range 3).map (fun j => s.mem.byteAt (s.cur.toNat + 2 + j)) ∧
       tagField [0x9F, 0x81, 0xFF] = some [0x9F, 0x81, 0xFF]) :=
  ⟨⟨plain_withIn _ _ _, by decide, by decide, by decide, by decide, by decide, by decide⟩,
    ⟨plain_withIn _ _ _, by decide, by decide, by decide, by decide, by decide, by decide⟩⟩

/-- END at INSIZE: a length, an invalid byte, and the range exhausted. -/
theorem witness_LparseEndsInOneOfThreeWays :
    (PlainRange (withIn [0x82, 0x01, 0x00] 0 3) ∧ EndInsideIn (withIn [0x82, 0x01, 0x00] 0 3)) ∧
      (PlainRange (withIn [0x85] 0 1) ∧ EndInsideIn (withIn [0x85] 0 1)) ∧
      PlainRange (withIn [0x81] 0 1) ∧ EndInsideIn (withIn [0x81] 0 1) ∧
      lengthField [0x82, 0x01, 0x00] = .value 256 true 3 ∧ lengthField [0x85] = .invalid ∧
      lengthField [0x81] = .unfinished true :=
  ⟨⟨plain_withIn _ _ _, by unfold EndInsideIn; decide⟩, ⟨plain_withIn _ _ _, by unfold EndInsideIn; decide⟩,
    plain_withIn _ _ _, by unfold EndInsideIn; decide, by decide, by decide, by decide⟩

/-- N = 1 and N = 4, the field ending at END and at INSIZE. -/
theorem witness_LongFormIsBigEndian :
    (let s := withIn [0x81, 0x80] 0 2
     PlainRange s ∧ s.cur.toNat + 1 + 1 ≤ s.endr.toNat ∧ s.cur.toNat + 1 + 1 ≤ s.mem.size ∧
       (s.mem.byteAt s.cur.toNat).toNat = 0x80 + 1) ∧
    (let s := withIn [0x84, 0x01, 0x02, 0x03, 0x04] 0 5
     PlainRange s ∧ s.cur.toNat + 4 + 1 ≤ s.endr.toNat ∧ s.cur.toNat + 4 + 1 ≤ s.mem.size ∧
       (s.mem.byteAt s.cur.toNat).toNat = 0x80 + 4) :=
  ⟨⟨plain_withIn _ _ _, by decide, by decide, by decide⟩, ⟨plain_withIn _ _ _, by decide, by decide, by decide⟩⟩

/-- Two buffers that differ at the byte before CUR and at the byte at END. -/
theorem witness_ParseReadsOnlyTheRange :
    isParse .lparse ∧
      (∀ a, (withIn [0x11, 0x05, 0x22] 1 2).cur.toNat ≤ a → a < (withIn [0x11, 0x05, 0x22] 1 2).endr.toNat →
        ∀ d, (withIn [0x11, 0x05, 0x22] 1 2).mem.read a d = (withIn [0x33, 0x05] 1 2).mem.read a d) ∧
      ∃ t, exec .lparse (withIn [0x11, 0x05, 0x22] 1 2) = .next t := by
  refine ⟨.inr rfl, fun a h1 h2 d => ?_, _, rfl⟩
  have h3 : 1 ≤ a := h1
  have h4 : a < 2 := h2
  obtain rfl : a = 1 := by omega
  rfl

theorem witness_AccessErrorRestoresTheState :
    (∃ t, exec .tparse (withIn [0x5F] 0 3) = .next t ∧ Erred t) ∧
      ∃ t, exec .lparse (withIn [0x82, 0x01] 0 3) = .next t ∧ Erred t :=
  ⟨⟨_, rfl, _, rfl, rfl⟩, ⟨_, rfl, _, rfl, rfl⟩⟩

theorem witness_PayloadContentRaisesNoError :
    isParse .tparse ∧ isParse .lparse ∧ EndInsideIn (withIn [0xFF, 0xFF, 0xFF] 0 3) :=
  ⟨.inl rfl, .inr rfl, by unfold EndInsideIn; decide⟩

theorem witness_CursorMovesForwardInsideTheRange :
    isParse .tparse ∧ isParse .lparse ∧ (∃ t, exec .tparse (withIn [0x00, 0x5F] 0 2) = .next t) ∧
      ∃ t, exec .lparse (withIn [0x84, 0x00, 0x00, 0x00, 0x00] 0 5) = .next t :=
  ⟨.inl rfl, .inr rfl, ⟨_, rfl⟩, ⟨_, rfl⟩⟩

/-- The state after a parse command, without an error. -/
theorem noError_of {t : State} {v : Word} (h : t.resp = good v) : NoCommandError t := by
  intro r hr
  rw [h] at hr
  cases hr
  rfl

/-- TPARSE with a tag and with an exhausted range; LPARSE with a length, an invalid byte and an exhausted range. -/
theorem witness_ParseOutcomesAreExclusive :
    (∃ t, exec .tparse (withIn [0x5A] 0 1) = .next t ∧ NoCommandError t ∧ St.tok t.st = true) ∧
      (∃ t, exec .tparse (withIn [0x5F] 0 1) = .next t ∧ NoCommandError t ∧ St.exh t.st = true) ∧
      (∃ t, exec .lparse (withIn [0x05] 0 1) = .next t ∧ NoCommandError t ∧ St.lok t.st = true) ∧
      (∃ t, exec .lparse (withIn [0x80] 0 1) = .next t ∧ NoCommandError t ∧ St.linv t.st = true) ∧
      ∃ t, exec .lparse (withIn [0x81] 0 1) = .next t ∧ NoCommandError t ∧ St.exh t.st = true :=
  ⟨⟨_, rfl, noError_of rfl, by decide⟩, ⟨_, rfl, noError_of rfl, by decide⟩, ⟨_, rfl, noError_of rfl, by decide⟩,
    ⟨_, rfl, noError_of rfl, by decide⟩, ⟨_, rfl, noError_of rfl, by decide⟩⟩

theorem witness_ParseWritesOnlyItsOwnFields :
    (∃ t, exec .tparse { withIn [0x5A] 0 1 with st := 0x00001151 } = .next t ∧ NoCommandError t) ∧
      ∃ t, exec .lparse { withIn [0x81] 0 1 with st := 0x0000110E } = .next t ∧ NoCommandError t :=
  ⟨⟨_, rfl, noError_of rfl⟩, ⟨_, rfl, noError_of rfl⟩⟩

/-- No byte skipped, and one. -/
theorem witness_SkippedBytesAreCountedByTheCursor :
    (∃ t, exec .tparse (withIn [0x5A] 0 1) = .next t ∧ NoCommandError t ∧ St.tok t.st = true) ∧
      ∃ t, exec .tparse (withIn [0x00, 0x5A] 0 2) = .next t ∧ NoCommandError t ∧ St.tok t.st = true :=
  ⟨⟨_, rfl, noError_of rfl, by decide⟩, ⟨_, rfl, noError_of rfl, by decide⟩⟩

/-- The lowest and the highest reserved bit of a CLRERR word. -/
theorem witness_ClrerrClearsTheErrorRecord :
    ∀ cmd ∈ [0x33000001#32, 0x33800000#32], cmd.toNat / 2 ^ 24 = 0x33 ∧ cmd.toNat % 2 ^ 24 ≠ 0 := by simp

/-- A command of each row of rule R57's table, and one that errs. -/
theorem witness_EveryCommandReturnsAResponse :
    (∀ cmd ∈ [0x010000FF#32, 0x0200006F#32, 0x070001FF#32, 0x21000000#32, 0x22000000#32, 0x31040000#32, 0x32010000#32,
        0x33000000#32], ∃ t r, acceptCommand cmd 0 erred = .next t ∧ t.resp = some r ∧ r.rerr = false) ∧
      ∃ t, acceptCommand 0x00000000 0 erred = .next t ∧ t.resp = bad := by
  refine ⟨fun cmd h => ?_, _, rfl, rfl⟩
  simp only [List.mem_cons, List.not_mem_nil, or_false] at h
  rcases h with rfl | rfl | rfl | rfl | rfl | rfl | rfl | rfl <;> exact ⟨_, _, rfl, rfl, rfl⟩

/-- One command for each code. -/
theorem witness_ErrorsArePrecise :
    (∀ cmd ∈ [0x00000000#32, 0x01000100#32, 0x06000000#32, 0x31050000#32, 0x32020000#32],
      ∃ t, acceptCommand cmd 0 State.reset = .next t ∧ t.resp = bad) ∧
      ∃ t, acceptCommand 0x21000000 0 (withIn [0x5F] 0 3) = .next t ∧ Erred t := by
  refine ⟨fun cmd h => ?_, _, rfl, _, rfl, rfl⟩
  simp only [List.mem_cons, List.not_mem_nil, or_false] at h
  rcases h with rfl | rfl | rfl | rfl | rfl <;> exact ⟨_, rfl, rfl⟩

/-- With ERR 1 before, and with ERR 0; a code of its first cause, and ACCESS. -/
theorem witness_OnlyTheFirstErrorIsRecorded :
    (∃ t, acceptCommand 0x00000000 0 erred = .next t ∧ Erred t ∧ St.err erred.st = true) ∧
      (∃ t, acceptCommand 0x00000000 0 State.reset = .next t ∧ Erred t ∧ St.err State.reset.st = false) ∧
      decodeErrorCode 0x00000000 = some 1 ∧
      (∃ t, acceptCommand 0x21000000 0 (withIn [0x5F] 0 3) = .next t ∧ Erred t) ∧ decodeErrorCode 0x21000000 = none :=
  ⟨⟨_, rfl, ⟨_, rfl, rfl⟩, by decide⟩, ⟨_, rfl, ⟨_, rfl, rfl⟩, by decide⟩, by decide, ⟨_, rfl, _, rfl, rfl⟩, by decide⟩

/-- RD ST, and another command; the two ST words differ in ERR and ECODE alone. -/
theorem witness_ErrBlocksNoCommand :
    (0x00000004 : Word) &&& 0xFFFF0EFF#32 = erred.st &&& 0xFFFF0EFF#32 ∧
      (∃ t, acceptCommand 0x31040000 0 erred = .next t) ∧ ∃ t, acceptCommand 0x22000000 0 erred = .next t :=
  ⟨by decide, ⟨_, rfl⟩, ⟨_, rfl⟩⟩

/-- Each register changed by each of its writers. -/
theorem witness_RegistersChangeOnlyByTheirWriters :
    (∃ t, exec (.wr .cur 5) erred = .next t ∧ t.cur ≠ erred.cur) ∧
      (∃ t, exec (.wr .endr 5) erred = .next t ∧ t.endr ≠ erred.endr) ∧
      (∃ t, exec .tparse erred = .next t ∧ t.cur ≠ erred.cur ∧ t.tag ≠ erred.tag) ∧
      (∃ t, exec .lparse erred = .next t ∧ t.cur ≠ erred.cur ∧ t.len ≠ erred.len ∧ t.st ≠ erred.st) ∧
      (∃ t, exec .clrerr erred = .next t ∧ t.st ≠ erred.st) ∧
      ∃ t, exec (.rd (.undefined 0)) State.reset = .next t ∧ t.st ≠ State.reset.st :=
  ⟨⟨_, rfl, by decide⟩, ⟨_, rfl, by decide⟩, ⟨_, rfl, by decide, by decide⟩,
    ⟨_, rfl, by decide, by decide, by decide⟩, ⟨_, rfl, by decide⟩, ⟨_, rfl, by decide⟩⟩

/-- A state in the invariant with a tag held and an error recorded. -/
theorem inv_erred : Inv erred := by
  refine ⟨by decide, ⟨by decide, by decide⟩, ⟨by decide, by decide⟩, ⟨by decide, fun _ => ?_⟩, ?_⟩
  · exact ⟨0x5A, [], [0x5A], by decide, by decide, by decide, by decide⟩
  · exact ⟨by decide, by decide, by decide, by decide⟩

theorem witness_ReservedBitsStayZero :
    ReservedZero { erred with port := [.command 0x22000000 0] } ∧
      ∃ t, step { erred with port := [.command 0x22000000 0] } = .next t :=
  ⟨⟨by decide, by decide⟩, _, rfl⟩

theorem witness_InvariantIsKeptByEveryStep :
    Inv { erred with port := [.command 0x22000000 0] } ∧
      ∃ t, step { erred with port := [.command 0x22000000 0] } = .next t :=
  ⟨inv_erred, _, rfl⟩

theorem witness_AssemblerWritesWellFormedCommands :
    Asm.parseLine ['T', 'N', 'U', 'M', 'F', ' ', '0', 'x', '8', '1', ',', ' ', '2'] = some [.tnumf 0x81 .second] ∧
      Instr.tnumf 0x81 .second ∈ [Instr.tnumf 0x81 .second] := by decide

theorem witness_RangeSetsCurThenEnd :
    ({ erred with port := [.command 0x32000000 2, .command 0x32010000 5, .reset] } : State).port =
      (Pseudo.range 2 5).expand.map (fun i => .command (encode i).1 (encode i).2) ++ [.reset] := by decide

/-- A tag held, and none. -/
theorem witness_TagTextIsTwoDigitsAByte :
    (Inv erred ∧ St.tok erred.st = true) ∧ Inv { erred with tag := 0, st := 0 } ∧ St.tok (0 : Word) = false :=
  ⟨⟨inv_erred, by decide⟩,
    ⟨inv_erred.1, ⟨by decide, by decide⟩, ⟨by decide, by decide⟩, ⟨by decide, fun h => absurd h (by decide)⟩,
      ⟨by decide, by decide, by decide, by decide⟩⟩, by decide⟩

/-- The whole of IN, with garbage and with nesting; e = INSIZE. -/
theorem witness_HostDecodeRaisesNoError :
    0 < 2 ^ 32 ∧ 5 < 2 ^ 32 ∧ 5 ≤ (withIn [0x6F, 0x03, 0x5A, 0x01, 0xFF] 0 0).mem.size := by decide

/-- `5A00` alone; `5A01FF5A00` after its first element (rule R122); a three-byte tag and the longest long form after a
skipped byte. -/
theorem witness_TrailingLengthFieldEmitsNoNode :
    (let s := withIn [0x5A, 0x00] 0 2
     PlainRange s ∧ EndInsideIn s ∧
       BeginsWithElement (bytesBetween s.mem s.cur.toNat s.endr.toNat) 0 [0x5A] [0x00] 0 []) ∧
    (let s := withIn [0x5A, 0x01, 0xFF, 0x5A, 0x00] 3 5
     PlainRange s ∧ EndInsideIn s ∧
       BeginsWithElement (bytesBetween s.mem s.cur.toNat s.endr.toNat) 0 [0x5A] [0x00] 0 []) ∧
    (let s := withIn [0x00, 0x9F, 0x81, 0xFF, 0x84, 0xFF, 0xFF, 0xFF, 0xFF] 0 0
     0 < 2 ^ 32 ∧ 9 < 2 ^ 32 ∧ 9 ≤ s.mem.size ∧ (∀ x, 0 ≤ x → x < 9 → x ∉ s.mem.erratic) ∧
       BeginsWithElement (bytesBetween s.mem 0 9) 1 [0x9F, 0x81, 0xFF] [0x84, 0xFF, 0xFF, 0xFF, 0xFF] 0xFFFFFFFF []) :=
  ⟨⟨plain_withIn _ _ _, by unfold EndInsideIn; decide, by decide, by decide, by decide, false, by decide⟩,
    ⟨plain_withIn _ _ _, by unfold EndInsideIn; decide, by decide, by decide, by decide, false, by decide⟩,
    by decide, by decide, by decide, (fun _ _ _ h => by cases h), by decide, by decide, by decide, true, by decide⟩

/-- A primitive element whose value is truncated, and a constructed one; one byte left in each. -/
theorem witness_ElementWithAByteLeftIsPut :
    (let s := withIn [0x5A, 0x03, 0xAA] 0 3
     PlainRange s ∧ EndInsideIn s ∧
       BeginsWithElement (bytesBetween s.mem s.cur.toNat s.endr.toNat) 0 [0x5A] [0x03] 3 [0xAA] ∧ [(0xAA : Byte)] ≠ [] ∧
       (([0x5A] : List Byte).headD 0).getLsbD 5 = false) ∧
    (let s := withIn [0x00, 0x6F, 0x81, 0x01, 0x5A] 0 5
     PlainRange s ∧ EndInsideIn s ∧
       BeginsWithElement (bytesBetween s.mem s.cur.toNat s.endr.toNat) 1 [0x6F] [0x81, 0x01] 1 [0x5A] ∧
       [(0x5A : Byte)] ≠ [] ∧ (([0x6F] : List Byte).headD 0).getLsbD 5 = true) :=
  ⟨⟨plain_withIn _ _ _, by unfold EndInsideIn; decide, ⟨by decide, by decide, by decide, false, by decide⟩,
      by decide, by decide⟩,
    plain_withIn _ _ _, by unfold EndInsideIn; decide, ⟨by decide, by decide, by decide, true, by decide⟩,
    by decide, by decide⟩

end Sys2Proof.Tests
end

section
/-! Proofs for 00_scope.md: every command completes, a host write completes inside IN, so a step stops only on a breach by
the host (rules R11, R118). -/

namespace Sys2Proof.Machine

/-! ### Commands -/

/-- Rule R97: a command error is a next state, so no command stops the machine. -/
theorem exec_completes (i : Instr) (s : State) : ∃ t, exec i s = .next t := by
  cases i with
  | tclass b => exact ⟨_, rfl⟩
  | tcons b => exact ⟨_, rfl⟩
  | tprim b => exact ⟨_, rfl⟩
  | tmulti b => exact ⟨_, rfl⟩
  | tlast b => exact ⟨_, rfl⟩
  | tvalid b n => cases n <;> exact ⟨_, rfl⟩
  | tnumf b n => cases n <;> exact ⟨_, rfl⟩
  | lvalid b => exact ⟨_, rfl⟩
  | lmulti b => exact ⟨_, rfl⟩
  | lgetlen b => exact ⟨_, rfl⟩
  | tparse => exact ⟨_, rfl⟩
  | lparse => exact ⟨_, rfl⟩
  | rd r => cases r <;> exact ⟨_, rfl⟩
  | wr r value => cases r <;> exact ⟨_, rfl⟩
  | clrerr => exact ⟨_, rfl⟩

theorem acceptCommand_completes (cmd data : Word) (s : State) : ∃ t, acceptCommand cmd data s = .next t := by
  cases h : decode cmd data with
  | error c => exact ⟨_, acceptCommand_error h s⟩
  | ok i => exact acceptCommand_ok h s ▸ exec_completes i s

/-! ### Host writes -/

theorem Memory.write_eq_none {m : Memory} {a : Nat} {b : Byte} : m.write a b = none ↔ m.size ≤ a := by
  simp [Memory.write]

theorem Memory.writeAll_eq_none : ∀ {ws : List Host.Cell} {m : Memory},
    m.writeAll ws = none ↔ ∃ c ∈ ws, m.size ≤ c.1
  | [], m => by simp [Memory.writeAll]
  | c :: cs, m => by
    cases h : m.write c.1 c.2 with
    | none => simp [Memory.writeAll, h, Memory.write_eq_none.mp h]
    | some m' =>
      obtain ⟨hin, rfl⟩ := Memory.write_eq_some.mp h
      simp [Memory.writeAll, h, Memory.writeAll_eq_none, Nat.not_le.mpr hin]

theorem hostWrite_inside {s : State} {a : Nat} {b : Byte} {m : Memory} (h : s.mem.write a b = some m) :
    hostWrite a b s = .next (s.setMem m) := by
  simp [hostWrite, h]

theorem hostWrite_outside {s : State} {a : Nat} {b : Byte} (h : s.mem.size ≤ a) :
    hostWrite a b s = .fault .hostWriteOutsideIn := by
  simp [hostWrite, Memory.write_eq_none.mpr h]

/-- A racing command whose writes lie inside IN is the command over the disturbed IN, and IN then holds the writes. -/
theorem racingCommand_inside {s t : State} {cmd data : Word} {ws : List Host.Cell} {m : Memory}
    (hm : s.mem.writeAll ws = some m) (ht : acceptCommand cmd data (s.setMem (s.mem.disturb ws)) = .next t) :
    racingCommand cmd data ws s = .next (t.setMem m) := by
  simp [racingCommand, hm, ht]

theorem racingCommand_outside {s : State} {cmd data : Word} {ws : List Host.Cell} (h : ∃ c ∈ ws, s.mem.size ≤ c.1) :
    racingCommand cmd data ws s = .fault .hostWriteOutsideIn := by
  simp [racingCommand, Memory.writeAll_eq_none.mpr h]

/-! ### Steps -/

theorem step_idle {s : State} (h : s.port = []) : step s = .next s := by
  simp [step, nextEvent, h]

theorem step_cons {s : State} {e : PortEvent} {rest : List PortEvent} (h : s.port = e :: rest) :
    step s = portEvent e (s.setPort rest) :=
  nextEvent_cons h

/-- The host breaks the port, or writes outside an IN of this many bytes (log 9, 10). -/
def HostBreach (insize : Nat) : PortEvent → Prop
  | .command _ _ => False
  | .hostWrite a _ => insize ≤ a
  | .reset => False
  | .resetDuring _ _ => False
  | .racing _ _ ws => ∃ c ∈ ws, insize ≤ c.1
  | .overlapping _ _ _ _ => True

/-- What an event at the boundary can do: it completes, or it is a breach by the host and faults. -/
theorem portEvent_cases (e : PortEvent) (s : State) :
    (∃ t, portEvent e s = .next t) ∨ HostBreach s.mem.size e ∧ ∃ f, portEvent e s = .fault f := by
  cases e with
  | command cmd data => exact .inl (acceptCommand_completes cmd data s)
  | hostWrite a b =>
    cases h : s.mem.write a b with
    | none =>
      have hout := Memory.write_eq_none.mp h
      exact .inr ⟨hout, _, hostWrite_outside hout⟩
    | some m => exact .inl ⟨_, hostWrite_inside h⟩
  | reset => exact .inl ⟨_, rfl⟩
  | resetDuring cmd data => exact .inl ⟨_, rfl⟩
  | racing cmd data ws =>
    cases h : s.mem.writeAll ws with
    | none =>
      have hout := Memory.writeAll_eq_none.mp h
      exact .inr ⟨hout, _, racingCommand_outside hout⟩
    | some m =>
      obtain ⟨t, ht⟩ := acceptCommand_completes cmd data (s.setMem (s.mem.disturb ws))
      exact .inl ⟨_, racingCommand_inside h ht⟩
  | overlapping cmd data cmd2 data2 => exact .inr ⟨trivial, _, rfl⟩

/-- What a step can do: it completes, or the next event is a breach by the host and the step faults. -/
theorem step_cases (s : State) :
    (∃ t, step s = .next t) ∨
      ∃ e rest, s.port = e :: rest ∧ HostBreach s.mem.size e ∧ ∃ f, step s = .fault f := by
  cases h : s.port with
  | nil => exact .inl ⟨s, step_idle h⟩
  | cons e rest =>
    rw [step_cons h]
    exact (portEvent_cases e (s.setPort rest)).imp_right fun hb => ⟨e, rest, rfl, hb⟩

/-! ### The obligations -/

/-- Settles O13: `step_cases` leaves a next state or a breach, and a breach is one of the three events the statement
names. -/
theorem stepStopsOnlyOnAHostBreach : Obligations.StepStopsOnlyOnAHostBreach := by
  intro s
  obtain ⟨t, ht⟩ | ⟨e, rest, hport, hbreach, f, hf⟩ := step_cases s
  · simp [ht]
  · refine ⟨by simp [hf], fun _ _ => ?_⟩
    cases e with
    | hostWrite a b => exact .inr (.inl ⟨a, b, rest, hport, hbreach⟩)
    | racing cmd data ws => exact .inr (.inr ⟨cmd, data, ws, rest, hport, hbreach⟩)
    | overlapping cmd data cmd2 data2 => exact .inl ⟨cmd, data, cmd2, data2, rest, hport⟩
    | command | reset | resetDuring => exact hbreach.elim

/-- Settles O35: the step takes the command from the port, and a command that decodes is performed. -/
theorem stepPerformsTheDecodedCommand : Obligations.StepPerformsTheDecodedCommand := by
  intro s cmd data rest i hport hdecode
  calc step s
      _ = portEvent (.command cmd data) (s.setPort rest) := step_cons hport
      _ = exec i (s.setPort rest) := acceptCommand_ok hdecode _

end Sys2Proof.Machine
end

section
/-! Proofs for 10_state.md, the parse commands: the states TPARSE and LPARSE can end in (rules R24, R77 to R86), and from
them where the cursor stops (rules R17, R76), which outcome flag is set (rule R24) and what is left unchanged (rule
R23). -/

namespace Sys2Proof.Machine

/-! ### One read -/

/-- What a parse command's next read can do: find the range exhausted, raise ACCESS, or give a byte and go one on. -/
theorem nextByte_cases {s : State} {n : Nat} (hn : n ≤ s.rangeLen) :
    nextByte (s.advance n) = .exhausted ∨ nextByte (s.advance n) = .access ∨
      n + 1 ≤ s.rangeLen ∧ ∃ b, nextByte (s.advance n) = .byte b (s.advance (n + 1)) := by
  rw [nextByte_advance hn]
  by_cases hend : s.rangeLen ≤ n
  · simp [hend]
  · by_cases hin : (rangeBytes s).length ≤ n
    · simp [hend, hin]
    · refine .inr (.inr ⟨by omega, rangeByte s n, ?_⟩)
      rw [if_neg hend, if_neg hin]

/-! ### The ends of TPARSE -/

/-- `w` is the TAG of a tag field with the first byte `b1`, which is not 0x00 (rules R19, R79). -/
def HoldsTag (w : Word) (b1 : Byte) : Prop :=
  b1 ≠ 0 ∧ ∃ bs tb, tagField (b1 :: bs) = some tb ∧ w.toNat = tb.length * 2 ^ 24 + bigEndian tb

/-- The states in which TPARSE from `s` can end, after `n` reads: ACCESS (rule R77), the range exhausted (rule R82), or a
tag assembled (rule R80). -/
inductive TparseEnd (s : State) : State → Prop
  | access (n : Nat) : TparseEnd s (raiseAccess s (s.advance n))
  | exhausted (n : Nat) (skipped : Bool) (hn : n ≤ s.rangeLen) :
      TparseEnd s (respond 0 (((s.advance n).setTag 0).setSt (tagStatus s.st false true false skipped)))
  | assembled (n : Nat) (skipped : Bool) (w : Word) (b1 : Byte) (hn : n ≤ s.rangeLen) (hw : HoldsTag w b1) :
      TparseEnd s (respond w (((s.advance n).setTag w).setSt (tagStatus s.st true false (b1.getLsbD 5) skipped)))

theorem tagExhausted_end {s : State} {n : Nat} (hn : n ≤ s.rangeLen) (skipped : Bool) :
    TparseEnd s (tagExhausted skipped (s.advance n)) := by
  rw [tagExhausted, withTagFlags_eq]
  exact .exhausted n skipped hn

theorem tagDone_end {s : State} {n : Nat} (hn : n ≤ s.rangeLen) (skipped : Bool) {k : BitVec 2} {bytes : BitVec 24}
    {b1 : Byte} (hw : HoldsTag (packTag k bytes) b1) : TparseEnd s (tagDone k bytes b1 skipped (s.advance n)) := by
  rw [tagDone, withTagFlags_eq]
  exact .assembled n skipped _ b1 hn hw

theorem holdsTag_one {b1 : Byte} (h0 : b1 ≠ 0) (h1 : tagMultiByte b1 = false) :
    HoldsTag (packTag 1 (tagBytes1 b1)) b1 := by
  rw [tagMultiByte_eq, decide_eq_false_iff_not] at h1
  exact ⟨h0, [], [b1], by simp [tagField, h1], by simp [toNat_packTag, toNat_tagBytes1, bigEndian]⟩

theorem holdsTag_two {b1 b2 : Byte} (h0 : b1 ≠ 0) (h1 : tagMultiByte b1 = true) (h2 : tagLast b2 = true) :
    HoldsTag (packTag 2 (tagBytes2 b1 b2)) b1 := by
  rw [tagMultiByte_eq, decide_eq_true_eq] at h1
  rw [tagLast_eq, decide_eq_true_eq] at h2
  exact ⟨h0, [b2], [b1, b2], by simp [tagField, h1, h2], by simp [toNat_packTag, toNat_tagBytes2, bigEndian]⟩

theorem holdsTag_three {b1 b2 : Byte} (b3 : Byte) (h0 : b1 ≠ 0) (h1 : tagMultiByte b1 = true)
    (h2 : tagLast b2 = false) : HoldsTag (packTag 3 (tagBytes3 b1 b2 b3)) b1 := by
  rw [tagMultiByte_eq, decide_eq_true_eq] at h1
  rw [tagLast_eq, decide_eq_false_iff_not] at h2
  refine ⟨h0, [b2, b3], [b1, b2, b3], ?_, by simp [toNat_packTag, toNat_tagBytes3, bigEndian]⟩
  unfold tagField
  simp [h1, h2]

theorem thirdTagByte_end {s : State} {n : Nat} {b1 b2 : Byte} (skipped : Bool) (hn : n ≤ s.rangeLen) (h0 : b1 ≠ 0)
    (h1 : tagMultiByte b1 = true) (h2 : tagLast b2 = false) :
    TparseEnd s (thirdTagByte s b1 b2 skipped (s.advance n)) := by
  unfold thirdTagByte
  rcases nextByte_cases hn with h | h | ⟨hn', b3, h⟩ <;> rw [h]
  · exact tagExhausted_end hn skipped
  · exact .access n
  · exact tagDone_end hn' skipped (holdsTag_three b3 h0 h1 h2)

theorem secondTagByte_end {s : State} {n : Nat} {b1 : Byte} (skipped : Bool) (hn : n ≤ s.rangeLen) (h0 : b1 ≠ 0)
    (h1 : tagMultiByte b1 = true) : TparseEnd s (secondTagByte s b1 skipped (s.advance n)) := by
  unfold secondTagByte
  rcases nextByte_cases hn with h | h | ⟨hn', b2, h⟩ <;> rw [h]
  · exact tagExhausted_end hn skipped
  · exact .access n
  · cases h2 : tagLast b2 with
    | true => simpa [h2] using tagDone_end hn' skipped (holdsTag_two h0 h1 h2)
    | false => simpa [h2] using thirdTagByte_end skipped hn' h0 h1 h2

/-- How the skip loop can end (rule R81): every byte it consumed lies in the range, and the byte found is not 0x00. -/
theorem findFirst_cases (s : State) :
    (∃ n, findFirst s.rangeLen false s = .access (s.advance n)) ∨
    (∃ n skipped, n ≤ s.rangeLen ∧ findFirst s.rangeLen false s = .exhausted skipped (s.advance n)) ∨
    (∃ n skipped b1, n ≤ s.rangeLen ∧ b1 ≠ 0 ∧ findFirst s.rangeLen false s = .found b1 skipped (s.advance n)) := by
  have hle := length_rangeBytes_le s
  have hfind := findFirst_advance (s := s) (fuel := s.rangeLen) (n := 0) false (Nat.zero_le _) (Nat.sub_le _ _)
  rw [State.advance_zero, List.drop_zero] at hfind
  cases hdrop : (rangeBytes s).dropWhile (· == 0) with
  | nil =>
    rw [hdrop] at hfind
    by_cases hin : (rangeBytes s).length < s.rangeLen
    · exact .inl ⟨_, by simpa [hin] using hfind⟩
    · exact .inr (.inl ⟨_, _, hle, by simpa [hin] using hfind⟩)
  | cons b1 bs =>
    rw [hdrop] at hfind
    have hb1 : b1 ≠ 0 := by
      have hhead := List.head_dropWhile_not (p := (· == (0 : Byte))) (l := rangeBytes s) (by rw [hdrop]; nofun)
      simp only [hdrop] at hhead
      simpa using hhead
    have hlen := congrArg List.length (List.takeWhile_append_dropWhile (p := (· == (0 : Byte))) (l := rangeBytes s))
    rw [List.length_append, hdrop, List.length_cons] at hlen
    exact .inr (.inr ⟨_, _, b1, by omega, hb1, hfind⟩)

theorem tagPhase_end (s : State) : TparseEnd s (tagPhase s) := by
  unfold tagPhase
  rcases findFirst_cases s with ⟨n, h⟩ | ⟨n, skipped, hn, h⟩ | ⟨n, skipped, b1, hn, h0, h⟩ <;> rw [h]
  · exact .access n
  · exact tagExhausted_end hn skipped
  · cases h1 : tagMultiByte b1 with
    | true => simpa [h1] using secondTagByte_end skipped hn h0 h1
    | false => simpa [h1] using tagDone_end hn skipped (holdsTag_one h0 h1)

theorem exec_tparse_end {s t : State} (h : exec .tparse s = .next t) : TparseEnd s t := by
  cases h
  exact tagPhase_end s

/-! ### The ends of LPARSE -/

/-- The states in which LPARSE from `s` can end, after `n` reads: ACCESS (rule R77), the range exhausted, an invalid
byte, or a length, at most 127 in short form (rule R85). -/
inductive LparseEnd (s : State) : State → Prop
  | access (n : Nat) : LparseEnd s (raiseAccess s (s.advance n))
  | exhausted (n : Nat) (long : Bool) (hn : n ≤ s.rangeLen) (h5 : n ≤ 5) :
      LparseEnd s (respond 0 (((s.advance n).setLen 0).setSt (lenStatus s.st false false true long)))
  | invalid (n : Nat) (hn : n ≤ s.rangeLen) (h5 : n ≤ 5) :
      LparseEnd s (respond 0 (((s.advance n).setLen 0).setSt (lenStatus s.st false true false false)))
  | valid (n : Nat) (long : Bool) (w : Word) (hn : n ≤ s.rangeLen) (h5 : n ≤ 5)
      (hw : long = false → w.toNat ≤ 127) :
      LparseEnd s (respond w (((s.advance n).setLen w).setSt (lenStatus s.st true false false long)))

section Ends
variable {s : State} {n : Nat} (hn : n ≤ s.rangeLen) (h5 : n ≤ 5)
include hn h5

theorem lenExhausted_end (long : Bool) : LparseEnd s (lenExhausted long (s.advance n)) := by
  rw [lenExhausted, withLenFlags_eq]
  exact .exhausted n long hn h5

theorem lenInvalid_end : LparseEnd s (lenInvalid (s.advance n)) := by
  rw [lenInvalid, withLenFlags_eq]
  exact .invalid n hn h5

theorem lenDone_end {w : Word} {long : Bool} (hw : long = false → w.toNat ≤ 127) :
    LparseEnd s (lenDone w long (s.advance n)) := by
  rw [lenDone, withLenFlags_eq]
  exact .valid n long w hn h5 hw

end Ends

/-- The value bytes still to come, `k`, and those read, `n`, are at most 5 together (rules R83, R84). -/
theorem longLength_end {s : State} : ∀ {k n : Nat} (acc : Word), n ≤ s.rangeLen → k + n ≤ 5 →
    LparseEnd s (longLength s k acc (s.advance n))
  | 0, n, acc, hn, h5 => lenDone_end hn (by omega) nofun
  | k + 1, n, acc, hn, h5 => by
    unfold longLength
    rcases nextByte_cases hn with h | h | ⟨hn', d, h⟩ <;> rw [h]
    · exact lenExhausted_end hn (by omega) true
    · exact .access n
    · exact longLength_end (accByte acc d) hn' (by omega)

/-- A valid long-form byte counts at most 4 value bytes (rules R6, R71, R73). -/
theorem lenField_le_four : ∀ {b : Byte}, lenValid b = true → lenMultiByte b = true → (lenField b).toNat ≤ 4 := by
  decide

/-- A short-form byte is a length of at most 127 (rules R6, R72). -/
theorem zextByte_le_of_short : ∀ {b : Byte}, lenMultiByte b = false → (zextByte b).toNat ≤ 127 := by decide

theorem lengthPhase_end (s : State) : LparseEnd s (lengthPhase s) := by
  unfold lengthPhase
  rw [← State.advance_zero s]
  rcases nextByte_cases (s := s) (Nat.zero_le _) with h | h | ⟨hn, l0, h⟩ <;> rw [h, State.advance_zero]
  · simpa using lenExhausted_end (s := s) (Nat.zero_le _) (Nat.zero_le 5) false
  · simpa using LparseEnd.access (s := s) 0
  · cases hv : lenValid l0 with
    | false => simpa [hv] using lenInvalid_end hn (by omega)
    | true =>
      cases hm : lenMultiByte l0 with
      | true =>
        have h4 := lenField_le_four hv hm
        simpa [hv, hm] using longLength_end 0 hn (by omega)
      | false => simpa [hv, hm] using lenDone_end hn (by omega) fun _ => zextByte_le_of_short hm

theorem exec_lparse_end {s t : State} (h : exec .lparse s = .next t) : LparseEnd s t := by
  cases h
  exact lengthPhase_end s

/-! ### The cursor -/

/-- A parse command leaves CUR as far on as the bytes it consumed, all of them in the range; an ACCESS consumes none. -/
theorem TparseEnd.cur {s t : State} (h : TparseEnd s t) :
    ∃ n, n ≤ s.rangeLen ∧ t.cur = s.cur + BitVec.ofNat 32 n := by
  cases h with
  | access n => exact ⟨0, Nat.zero_le _, by simp⟩
  | exhausted n skipped hn => exact ⟨n, hn, rfl⟩
  | assembled n skipped w b1 hn hw => exact ⟨n, hn, rfl⟩

theorem LparseEnd.cur {s t : State} (h : LparseEnd s t) :
    ∃ n, n ≤ s.rangeLen ∧ n ≤ 5 ∧ t.cur = s.cur + BitVec.ofNat 32 n := by
  cases h with
  | access n => exact ⟨0, Nat.zero_le _, Nat.zero_le _, by simp⟩
  | exhausted n long hn h5 => exact ⟨n, hn, h5, rfl⟩
  | invalid n hn h5 => exact ⟨n, hn, h5, rfl⟩
  | valid n long w hn h5 hw => exact ⟨n, hn, h5, rfl⟩

/-- Settles O21: the cursor does not wrap while the range lasts, so it moves by the bytes consumed. -/
theorem cursorMovesForwardInsideTheRange : Obligations.CursorMovesForwardInsideTheRange := by
  rintro i s t (rfl | rfl) h
  · obtain ⟨n, hn, hcur⟩ := (exec_tparse_end h).cur
    rw [hcur, toNat_advance hn]
    unfold State.rangeLen at hn
    exact ⟨by omega, by omega, nofun⟩
  · obtain ⟨n, hn, h5, hcur⟩ := (exec_lparse_end h).cur
    rw [hcur, toNat_advance hn]
    unfold State.rangeLen at hn
    exact ⟨by omega, by omega, fun _ => by omega⟩

/-! ### The outcome flags -/

theorem not_noCommandError_raiseAccess (s0 s : State) : ¬ NoCommandError (raiseAccess s0 s) :=
  fun h => nomatch h _ rfl

/-- Settles O22: each end without an error writes its outcome flag 1 and the others 0. -/
theorem parseOutcomesAreExclusive : Obligations.ParseOutcomesAreExclusive := by
  refine fun s t => ⟨fun h herr => ?_, fun h herr => ?_⟩
  · cases exec_tparse_end h with
    | access n => exact absurd herr (not_noCommandError_raiseAccess _ _)
    | exhausted | assembled => simp [natOf]
  · cases exec_lparse_end h with
    | access n => exact absurd herr (not_noCommandError_raiseAccess _ _)
    | exhausted | invalid | valid => simp [natOf]

/-! ### What is left unchanged -/

/-- Words that agree on a mask's bits are the same under it. -/
theorem and_mask_congr {v w mask : Word} (h : ∀ i, i < 32 → mask.getLsbD i = true → v.getLsbD i = w.getLsbD i) :
    v &&& mask = w &&& mask := by
  apply BitVec.eq_of_getLsbD_eq
  intro i hi
  rw [BitVec.getLsbD_and, BitVec.getLsbD_and]
  cases hm : mask.getLsbD i with
  | true => rw [h i hi hm]
  | false => simp

/-- The bits of ST that are not TPARSE's to write. -/
theorem tagStatus_frame (st : Word) (tok exh cons skip : Bool) :
    tagStatus st tok exh cons skip &&& 0xFFFFFFF0#32 = st &&& 0xFFFFFFF0#32 := by
  refine and_mask_congr fun i hi hm => ?_
  have hbit : i ≠ 0 ∧ i ≠ 1 ∧ i ≠ 2 ∧ i ≠ 3 := by revert hm hi; revert i; decide
  simp [getLsbD_tagStatus, hbit]

/-- The bits of ST that are not LPARSE's to write. -/
theorem lenStatus_frame (st : Word) (lok linv exh llong : Bool) :
    lenStatus st lok linv exh llong &&& 0xFFFFFF8E#32 = st &&& 0xFFFFFF8E#32 := by
  refine and_mask_congr fun i hi hm => ?_
  have hbit : i ≠ 0 ∧ i ≠ 4 ∧ i ≠ 5 ∧ i ≠ 6 := by revert hm hi; revert i; decide
  simp [getLsbD_lenStatus, hbit]

theorem TparseEnd.frame {s t : State} (h : TparseEnd s t) :
    t.len = s.len ∧ t.endr = s.endr ∧ t.mem = s.mem ∧ t.port = s.port := by
  cases h <;> exact ⟨rfl, rfl, rfl, rfl⟩

theorem LparseEnd.frame {s t : State} (h : LparseEnd s t) :
    t.tag = s.tag ∧ t.endr = s.endr ∧ t.mem = s.mem ∧ t.port = s.port := by
  cases h <;> exact ⟨rfl, rfl, rfl, rfl⟩

/-- Settles O23: without an error ST is written by `tagStatus` or `lenStatus` alone, and the rest is the frame of the
command's ends. -/
theorem parseWritesOnlyItsOwnFields : Obligations.ParseWritesOnlyItsOwnFields := by
  refine fun s t => ⟨fun h herr => ?_, fun h herr => ?_⟩
  · have hend := exec_tparse_end h
    obtain ⟨hlen, hendr, hmem, -⟩ := hend.frame
    refine ⟨?_, hlen, hendr, hmem⟩
    cases hend with
    | access n => exact absurd herr (not_noCommandError_raiseAccess _ _)
    | exhausted | assembled => exact tagStatus_frame ..
  · have hend := exec_lparse_end h
    obtain ⟨htag, hendr, hmem, -⟩ := hend.frame
    refine ⟨?_, htag, hendr, hmem⟩
    cases hend with
    | access n => exact absurd herr (not_noCommandError_raiseAccess _ _)
    | exhausted | invalid | valid => exact lenStatus_frame ..

end Sys2Proof.Machine
end

section
/-! Proofs for 10_state.md, the commands: what each command can do, the inspectors' statelessness (rules R27, R70, R75)
and which command writes which register (rules R15 to R22, R33). -/

namespace Sys2Proof.Machine

/-! ### The inspectors -/

/-- An inspector command answers a word that does not depend on the state, or has BN = 0, which no assembler writes, and
raises BAD_BN (rules R27, R50, R58). -/
theorem exec_inspector {i : Instr} (hi : isInspector i = true) :
    (∃ v, ∀ s, exec i s = .next (respond v s)) ∨
      i.wellFormed = false ∧ ∀ s, exec i s = .next (raiseError .badBn s) := by
  cases i with
  | tvalid b n | tnumf b n =>
    cases n with
    | zero => exact .inr ⟨rfl, fun _ => rfl⟩
    | first | second | third => exact .inl ⟨_, fun _ => rfl⟩
  | tclass | tcons | tprim | tmulti | tlast | lvalid | lmulti | lgetlen => exact .inl ⟨_, fun _ => rfl⟩
  | tparse | lparse | rd | wr | clrerr => cases hi

/-- Settles O14: a well-formed inspector command does not have BN = 0, so it answers its word. -/
theorem inspectorsAreStateless : Obligations.InspectorsAreStateless := by
  intro i hi hwf
  obtain ⟨v, hv⟩ | ⟨hill, -⟩ := exec_inspector hi
  · exact ⟨v.toNat, fun s => by rw [hv s, respond_eq_answered rfl]⟩
  · exact absurd (hill.symm.trans hwf) Bool.false_ne_true

/-! ### What a command can do -/

/-- What performing a command can do: answer and change nothing else, raise an error, or write what its row of the
opcode map says. -/
inductive ExecEffect (s : State) : Instr → State → Prop
  | answer (i : Instr) (v : Word) : ExecEffect s i (respond v s)
  | error (i : Instr) (c : ErrCode) : ExecEffect s i (raiseError c s)
  | tparse {t : State} (hend : TparseEnd s t) : ExecEffect s .tparse t
  | lparse {t : State} (hend : LparseEnd s t) : ExecEffect s .lparse t
  | wrCur (v : Word) : ExecEffect s (.wr .cur v) (respond 0 (s.setCur v))
  | wrEnd (v : Word) : ExecEffect s (.wr .endr v) (respond 0 (s.setEnd v))
  | clrerr : ExecEffect s .clrerr (respond 0 (clearError s))

theorem exec_inspector_effect {i : Instr} {s t : State} (hi : isInspector i = true) (h : exec i s = .next t) :
    ExecEffect s i t := by
  obtain ⟨v, hv⟩ | ⟨-, he⟩ := exec_inspector hi
  · cases (hv s).symm.trans h
    exact .answer i v
  · cases (he s).symm.trans h
    exact .error i .badBn

theorem exec_effect {i : Instr} {s t : State} (h : exec i s = .next t) : ExecEffect s i t := by
  cases i with
  | tparse => exact .tparse (exec_tparse_end h)
  | lparse => exact .lparse (exec_lparse_end h)
  | rd r =>
    cases r with
    | undefined k => cases h; exact .error _ .badReg
    | cur | endr | tag | len | st => cases h; exact .answer _ _
  | wr r value =>
    cases r with
    | cur => cases h; exact .wrCur value
    | endr => cases h; exact .wrEnd value
    | undefined k => cases h; exact .error _ .badReg
    | tag | len | st => cases h; exact .error _ .roWrite
  | clrerr => cases h; exact .clrerr
  | tclass | tcons | tprim | tmulti | tlast | tvalid | tnumf | lvalid | lmulti | lgetlen =>
    exact exec_inspector_effect rfl h

/-- No command writes IN or what the host does next (rule R33). -/
theorem ExecEffect.frame {s t : State} {i : Instr} (h : ExecEffect s i t) : t.mem = s.mem ∧ t.port = s.port := by
  cases h with
  | tparse hend => exact hend.frame.2.2
  | lparse hend => exact hend.frame.2.2
  | answer | error | wrCur | wrEnd | clrerr => exact ⟨rfl, rfl⟩

/-- Settles O29: of the effects a command can have, each names the registers it writes. -/
theorem registersChangeOnlyByTheirWriters : Obligations.RegistersChangeOnlyByTheirWriters := by
  intro i s t h
  have heff := exec_effect h
  obtain ⟨hmem, hport⟩ := heff.frame
  cases heff with
  | answer i v => simp
  | error i c => simp [Erred]
  | tparse hend =>
    obtain ⟨hlen, hendr, -, -⟩ := hend.frame
    simp [hlen, hendr, hmem, hport]
  | lparse hend =>
    obtain ⟨htag, hendr, -, -⟩ := hend.frame
    simp [htag, hendr, hmem, hport]
  | wrCur v => simp
  | wrEnd v => simp
  | clrerr => simp

end Sys2Proof.Machine
end

section
/-! Proofs for 10_state.md, the steps: what a step can do, and what it writes of TAG, LEN and ST, the registers the
invariant's records speak of. -/

namespace Sys2Proof.Machine

/-! ### What a step can do -/

/-- What a step can do: nothing, with no event on the port; a command, a host write or a reset; or a command the host
races with, after which IN holds what was written. -/
inductive StepEffect (s : State) : State → Prop
  | idle : StepEffect s s
  | command {rest : List PortEvent} {cmd data : Word} {t : State}
      (h : acceptCommand cmd data (s.setPort rest) = .next t) : StepEffect s t
  | hostWrite (rest : List PortEvent) {a : Nat} {b : Byte} {m : Memory} (hm : s.mem.write a b = some m) :
      StepEffect s ((s.setPort rest).setMem m)
  | reset (rest : List PortEvent) : StepEffect s (s.setPort rest).applyReset
  | racing {rest : List PortEvent} {cmd data : Word} {ws : List Host.Cell} {m : Memory} {t : State}
      (hm : s.mem.writeAll ws = some m)
      (h : acceptCommand cmd data ((s.setPort rest).setMem (s.mem.disturb ws)) = .next t) : StepEffect s (t.setMem m)

theorem portEvent_effect {s t : State} {rest : List PortEvent} {e : PortEvent}
    (h : portEvent e (s.setPort rest) = .next t) : StepEffect s t := by
  cases e with
  | command cmd data => exact .command h
  | hostWrite a b =>
    cases hm : s.mem.write a b with
    | none => cases (hostWrite_outside (s := s.setPort rest) (Memory.write_eq_none.mp hm)).symm.trans h
    | some m =>
      cases (hostWrite_inside (s := s.setPort rest) hm).symm.trans h
      exact .hostWrite rest hm
  | reset => cases h; exact .reset rest
  | resetDuring cmd data => cases h; exact .reset rest
  | racing cmd data ws =>
    cases hm : s.mem.writeAll ws with
    | none => cases (racingCommand_outside (s := s.setPort rest) (Memory.writeAll_eq_none.mp hm)).symm.trans h
    | some m =>
      obtain ⟨u, hu⟩ := acceptCommand_completes cmd data ((s.setPort rest).setMem (s.mem.disturb ws))
      cases (racingCommand_inside (s := s.setPort rest) hm hu).symm.trans h
      exact .racing hm hu
  | overlapping cmd data cmd2 data2 => cases h

theorem step_effect {s t : State} (h : step s = .next t) : StepEffect s t := by
  cases hport : s.port with
  | nil =>
    cases (step_idle hport).symm.trans h
    exact .idle
  | cons e rest => exact portEvent_effect ((step_cons hport).symm.trans h)

/-- A command raises a decode error or is performed (rules R11, R56). -/
theorem acceptCommand_cases {cmd data : Word} {s t : State} (h : acceptCommand cmd data s = .next t) :
    (∃ c, t = raiseError c s) ∨ ∃ i, ExecEffect s i t := by
  cases hdecode : decode cmd data with
  | error c =>
    cases (acceptCommand_error hdecode s).symm.trans h
    exact .inl ⟨c, rfl⟩
  | ok i => exact .inr ⟨i, exec_effect ((acceptCommand_ok hdecode s).symm.trans h)⟩

theorem acceptCommand_mem {cmd data : Word} {s t : State} (h : acceptCommand cmd data s = .next t) :
    t.mem = s.mem := by
  obtain ⟨c, rfl⟩ | ⟨i, heff⟩ := acceptCommand_cases h
  · rfl
  · exact heff.frame.1

/-- A step keeps the canonical form of IN: only the host writes it (rules R31, R33). -/
theorem step_keeps_wf {s t : State} (h : step s = .next t) (hwf : s.mem.wf) : t.mem.wf := by
  cases step_effect h with
  | idle => exact hwf
  | command hcmd => exact (acceptCommand_mem hcmd).symm ▸ hwf
  | hostWrite rest hm => exact Memory.write_wf hm hwf
  | reset rest => exact hwf
  | racing hm hcmd => exact Memory.writeAll_wf hm hwf

/-! ### What a step writes of TAG, LEN and ST -/

/-- The registers that commands write together: TAG, LEN and ST. -/
structure Records where
  tag : Word
  len : Word
  st  : Word

/-- A state's TAG, LEN and ST. -/
def State.records (s : State) : Records := { tag := s.tag, len := s.len, st := s.st }

@[simp] theorem State.records_tag (s : State) : s.records.tag = s.tag := rfl
@[simp] theorem State.records_len (s : State) : s.records.len = s.len := rfl
@[simp] theorem State.records_st (s : State) : s.records.st = s.st := rfl

theorem State.records_eq {s : State} {r : Records} : s.records = r ↔ s.tag = r.tag ∧ s.len = r.len ∧ s.st = r.st := by
  cases r
  simp [State.records]

/-- Every way in which a step takes the records `s` to `t`: unchanged; reset (rule R110); an error (rule R97) and the
return from it (rule R92); TPARSE's outcomes (rules R80, R82) and LPARSE's (rule R85). -/
inductive RecordWrite (s t : Records) : Prop
  | unchanged (h : t = s)
  | reset (h : t = { tag := 0, len := 0, st := 0 })
  | error (c : ErrCode) (h : t = { s with st := St.withError s.st c })
  | clear (h : t = { s with st := St.clearError s.st })
  | tagExhausted (skipped : Bool) (h : t = { s with tag := 0, st := tagStatus s.st false true false skipped })
  | tag (skipped : Bool) (w : Word) (b1 : Byte) (hw : HoldsTag w b1)
      (h : t = { s with tag := w, st := tagStatus s.st true false (b1.getLsbD 5) skipped })
  | lenExhausted (long : Bool) (h : t = { s with len := 0, st := lenStatus s.st false false true long })
  | lenInvalid (h : t = { s with len := 0, st := lenStatus s.st false true false false })
  | len (long : Bool) (w : Word) (hw : long = false → w.toNat ≤ 127)
      (h : t = { s with len := w, st := lenStatus s.st true false false long })

theorem TparseEnd.recordWrite {s t : State} (h : TparseEnd s t) : RecordWrite s.records t.records := by
  cases h with
  | access n => exact .error .access rfl
  | exhausted n skipped hn => exact .tagExhausted skipped rfl
  | assembled n skipped w b1 hn hw => exact .tag skipped w b1 hw rfl

theorem LparseEnd.recordWrite {s t : State} (h : LparseEnd s t) : RecordWrite s.records t.records := by
  cases h with
  | access n => exact .error .access rfl
  | exhausted n long hn h5 => exact .lenExhausted long rfl
  | invalid n hn h5 => exact .lenInvalid rfl
  | valid n long w hn h5 hw => exact .len long w hw rfl

theorem ExecEffect.recordWrite {s t : State} {i : Instr} (h : ExecEffect s i t) :
    RecordWrite s.records t.records := by
  cases h with
  | answer | wrCur | wrEnd => exact .unchanged rfl
  | error i c => exact .error c rfl
  | tparse hend => exact hend.recordWrite
  | lparse hend => exact hend.recordWrite
  | clrerr => exact .clear rfl

theorem acceptCommand_recordWrite {cmd data : Word} {s t : State} (h : acceptCommand cmd data s = .next t) :
    RecordWrite s.records t.records := by
  obtain ⟨c, rfl⟩ | ⟨i, heff⟩ := acceptCommand_cases h
  · exact .error c rfl
  · exact heff.recordWrite

theorem step_recordWrite {s t : State} (h : step s = .next t) : RecordWrite s.records t.records := by
  cases step_effect h with
  | idle => exact .unchanged rfl
  | command hcmd => exact (acceptCommand_recordWrite hcmd :)
  | hostWrite rest hm => exact .unchanged rfl
  | reset rest => exact .reset rfl
  | racing hm hcmd => exact (acceptCommand_recordWrite hcmd :)

end Sys2Proof.Machine
end

section
/-! Proofs for 10_state.md, the invariant: each of its records is kept by every write of TAG, LEN and ST (rules R19 to
R26, R95, R97), so every step keeps it; and it holds at reset (rule R30). -/

namespace Sys2Proof.Machine

/-! ### The error record leaves the parse fields -/

/-- An error changes no bit of ST but ERR and ECODE (rule R97). -/
theorem getLsbD_withError_other (st : Word) (c : ErrCode) {j : Nat} (h8 : j ≠ 8) (hcode : ¬ (12 ≤ j ∧ j < 16)) :
    (St.withError st c).getLsbD j = st.getLsbD j := by
  cases herr : St.err st with
  | true => rw [withError_later herr]
  | false => rw [getLsbD_withError_first herr, if_neg hcode, if_neg h8]

/-- CLRERR changes no bit of ST but ERR and ECODE (rule R92). -/
theorem getLsbD_clearError_other (st : Word) {j : Nat} (h8 : j ≠ 8) (hcode : ¬ (12 ≤ j ∧ j < 16)) :
    (St.clearError st).getLsbD j = st.getLsbD j := by
  rw [getLsbD_clearError, if_neg hcode, if_neg h8]

section Fields
variable (st : Word) (c : ErrCode)

@[simp] theorem tok_withError : St.tok (St.withError st c) = St.tok st :=
  getLsbD_withError_other st c (by decide) (by decide)
@[simp] theorem cons_withError : St.cons (St.withError st c) = St.cons st :=
  getLsbD_withError_other st c (by decide) (by decide)
@[simp] theorem lok_withError : St.lok (St.withError st c) = St.lok st :=
  getLsbD_withError_other st c (by decide) (by decide)
@[simp] theorem linv_withError : St.linv (St.withError st c) = St.linv st :=
  getLsbD_withError_other st c (by decide) (by decide)
@[simp] theorem llong_withError : St.llong (St.withError st c) = St.llong st :=
  getLsbD_withError_other st c (by decide) (by decide)

@[simp] theorem tok_clearError : St.tok (St.clearError st) = St.tok st :=
  getLsbD_clearError_other st (by decide) (by decide)
@[simp] theorem cons_clearError : St.cons (St.clearError st) = St.cons st :=
  getLsbD_clearError_other st (by decide) (by decide)
@[simp] theorem lok_clearError : St.lok (St.clearError st) = St.lok st :=
  getLsbD_clearError_other st (by decide) (by decide)
@[simp] theorem linv_clearError : St.linv (St.clearError st) = St.linv st :=
  getLsbD_clearError_other st (by decide) (by decide)
@[simp] theorem llong_clearError : St.llong (St.clearError st) = St.llong st :=
  getLsbD_clearError_other st (by decide) (by decide)

end Fields

/-! ### The fields of ST after reset (rule R30) -/

@[simp] theorem tok_zero : St.tok 0#32 = false := by decide
@[simp] theorem cons_zero : St.cons 0#32 = false := by decide
@[simp] theorem lok_zero : St.lok 0#32 = false := by decide
@[simp] theorem linv_zero : St.linv 0#32 = false := by decide
@[simp] theorem err_zero : St.err 0#32 = false := by decide
@[simp] theorem ecode_zero : St.ecode 0#32 = 0#4 := by decide

/-! ### Reserved bits (rule R26) -/

/-- The reserved bits of ST lie above the parse fields and outside ERR and ECODE (rule R22). -/
theorem reserved_bit {i : Nat} (hi : i < 32) (hm : (0xFFFF0E80#32).getLsbD i = true) :
    7 ≤ i ∧ i ≠ 8 ∧ ¬ (12 ≤ i ∧ i < 16) := by
  revert hm hi; revert i; decide

section Reserved
variable (st : Word)

theorem tagStatus_reserved (tok exh cons skip : Bool) :
    tagStatus st tok exh cons skip &&& 0xFFFF0E80#32 = st &&& 0xFFFF0E80#32 := by
  refine and_mask_congr fun i hi hm => ?_
  have hbit := reserved_bit hi hm
  rw [getLsbD_tagStatus, if_neg (by omega), if_neg (by omega), if_neg (by omega), if_neg (by omega)]

theorem lenStatus_reserved (lok linv exh llong : Bool) :
    lenStatus st lok linv exh llong &&& 0xFFFF0E80#32 = st &&& 0xFFFF0E80#32 := by
  refine and_mask_congr fun i hi hm => ?_
  have hbit := reserved_bit hi hm
  rw [getLsbD_lenStatus, if_neg (by omega), if_neg (by omega), if_neg (by omega), if_neg (by omega)]

theorem withError_reserved (c : ErrCode) : St.withError st c &&& 0xFFFF0E80#32 = st &&& 0xFFFF0E80#32 := by
  refine and_mask_congr fun i hi hm => ?_
  obtain ⟨-, h8, hcode⟩ := reserved_bit hi hm
  exact getLsbD_withError_other st c h8 hcode

theorem clearError_reserved : St.clearError st &&& 0xFFFF0E80#32 = st &&& 0xFFFF0E80#32 := by
  refine and_mask_congr fun i hi hm => ?_
  obtain ⟨-, h8, hcode⟩ := reserved_bit hi hm
  exact getLsbD_clearError_other st h8 hcode

end Reserved

/-- Reading bytes on from a number puts it before them. -/
theorem foldl_bigEndian (bs : List Byte) (acc : Nat) :
    bs.foldl (fun acc b => acc * 256 + b.toNat) acc = acc * 256 ^ bs.length + bigEndian bs := by
  induction bs generalizing acc with
  | nil => simp [bigEndian]
  | cons b bs ih =>
    have hpow : acc * 256 * 256 ^ bs.length = acc * 256 ^ (bs.length + 1) := by
      rw [Nat.pow_succ, Nat.mul_assoc, Nat.mul_comm 256]
    rw [bigEndian, List.foldl_cons, List.foldl_cons, ih, ih, List.length_cons, Nat.add_mul, hpow, Nat.zero_mul,
      Nat.zero_add, Nat.add_assoc]

/-- Bytes as a number, the first one taken off. -/
theorem bigEndian_cons (b : Byte) (bs : List Byte) :
    bigEndian (b :: bs) = b.toNat * 256 ^ bs.length + bigEndian bs := by
  rw [bigEndian, List.foldl_cons, foldl_bigEndian]
  simp

theorem bigEndian_lt (bs : List Byte) : bigEndian bs < 256 ^ bs.length := by
  induction bs with
  | nil => simp [bigEndian]
  | cons b bs ih =>
    have hb := b.isLt
    calc bigEndian (b :: bs)
        _ = b.toNat * 256 ^ bs.length + bigEndian bs := bigEndian_cons b bs
        _ < b.toNat * 256 ^ bs.length + 256 ^ bs.length := Nat.add_lt_add_left ih _
        _ = (b.toNat + 1) * 256 ^ bs.length := (Nat.succ_mul _ _).symm
        _ ≤ 256 * 256 ^ bs.length := Nat.mul_le_mul_right _ hb
        _ = 256 ^ (b :: bs).length := by rw [List.length_cons, Nat.pow_succ, Nat.mul_comm]

/-- A tag field's bytes fit TBYTES (rule R19). -/
theorem bigEndian_lt_tbytes {tb : List Byte} (h3 : tb.length ≤ 3) : bigEndian tb < 2 ^ 24 := by
  calc bigEndian tb
      _ < 256 ^ tb.length := bigEndian_lt tb
      _ ≤ 256 ^ 3 := Nat.pow_le_pow_right (by decide) h3
      _ = 2 ^ 24 := by decide

/-- A TAG that holds a tag field is that field's 1 to 3 bytes and their number (rule R19). -/
theorem HoldsTag.bytes {w : Word} {b1 : Byte} (h : HoldsTag w b1) :
    ∃ tb, 1 ≤ tb.length ∧ tb.length ≤ 3 ∧ w.toNat = tb.length * 2 ^ 24 + bigEndian tb := by
  obtain ⟨-, bs, tb, hfield, hw⟩ := h
  obtain ⟨h1, h3⟩ := tagField_length hfield
  exact ⟨tb, h1, h3, hw⟩

theorem HoldsTag.reserved {w : Word} {b1 : Byte} (h : HoldsTag w b1) : w &&& 0xFC000000#32 = 0 := by
  obtain ⟨tb, -, h3, hw⟩ := h.bytes
  have hlt := bigEndian_lt_tbytes h3
  refine (and_mask_eq_zero _ _).mpr fun i hi hm => ?_
  have hbit : 26 ≤ i := by revert hm hi; revert i; decide
  apply Nat.testBit_lt_two_pow
  calc w.toNat
      _ < 2 ^ 26 := by omega
      _ ≤ 2 ^ i := Nat.pow_le_pow_right (by decide) hbit

/-! ### The records -/

/-- TAG with TOK and CONS, in terms of the tag field TAG holds. -/
theorem tagRecordOk_iff {s : State} :
    TagRecordOk s ↔ (St.tok s.st = false → s.tag = 0 ∧ St.cons s.st = false) ∧
      (St.tok s.st = true → ∃ b1, HoldsTag s.tag b1 ∧ St.cons s.st = b1.getLsbD 5) := by
  simp only [TagRecordOk, HoldsTag]
  constructor
  · rintro ⟨h0, h1⟩
    refine ⟨h0, fun htok => ?_⟩
    obtain ⟨b1, bs, tb, hb1, hfield, hw, hcons⟩ := h1 htok
    exact ⟨b1, ⟨hb1, bs, tb, hfield, hw⟩, hcons⟩
  · rintro ⟨h0, h1⟩
    refine ⟨h0, fun htok => ?_⟩
    obtain ⟨b1, ⟨hb1, bs, tb, hfield, hw⟩, hcons⟩ := h1 htok
    exact ⟨b1, bs, tb, hb1, hfield, hw, hcons⟩

/-- The codes of rule R95. -/
theorem ecode_range (c : ErrCode) : 1 ≤ (ErrCode.ecode c).toNat ∧ (ErrCode.ecode c).toNat ≤ 6 := by
  cases c <;> decide

/-- With an error recorded ECODE holds a code: the first error's (rule R97). -/
theorem ecode_withError_range {st : Word} (c : ErrCode)
    (h : St.err st = true → 1 ≤ (St.ecode st).toNat ∧ (St.ecode st).toNat ≤ 6) :
    1 ≤ (St.ecode (St.withError st c)).toNat ∧ (St.ecode (St.withError st c)).toNat ≤ 6 := by
  cases herr : St.err st with
  | true =>
    rw [withError_later herr]
    exact h herr
  | false =>
    rw [ecode_withError_first herr]
    exact ecode_range c

section Keep
variable {s t : State} (hwrite : RecordWrite s.records t.records)
include hwrite

theorem RecordWrite.keeps_reservedZero (h : ReservedZero s) : ReservedZero t := by
  obtain ⟨hst, htag⟩ := h
  cases hwrite with
  | unchanged hr | reset hr | error c hr | clear hr | tagExhausted skipped hr | lenExhausted long hr | lenInvalid hr
  | len long w hw hr =>
    obtain ⟨htag', -, hst'⟩ := State.records_eq.mp hr
    simp [ReservedZero, htag', hst', tagStatus_reserved, lenStatus_reserved, withError_reserved, clearError_reserved,
      hst, htag]
  | tag skipped w b1 hw hr =>
    obtain ⟨htag', -, hst'⟩ := State.records_eq.mp hr
    simp [ReservedZero, htag', hst', tagStatus_reserved, hst, hw.reserved]

theorem RecordWrite.keeps_errorRecordOk (h : ErrorRecordOk s) : ErrorRecordOk t := by
  cases hwrite with
  | unchanged hr | tagExhausted skipped hr | tag skipped w b1 hw hr | lenExhausted long hr | lenInvalid hr
  | len long w hw hr =>
    obtain ⟨-, -, hst⟩ := State.records_eq.mp hr
    simpa [ErrorRecordOk, hst] using h
  | reset hr | clear hr =>
    obtain ⟨-, -, hst⟩ := State.records_eq.mp hr
    simp [ErrorRecordOk, hst]
  | error c hr =>
    obtain ⟨-, -, hst⟩ := State.records_eq.mp hr
    simpa [ErrorRecordOk, hst] using ecode_withError_range c h.2

theorem RecordWrite.keeps_tagRecordOk (h : TagRecordOk s) : TagRecordOk t := by
  cases hwrite with
  | unchanged hr | error c hr | clear hr | lenExhausted long hr | lenInvalid hr | len long w hw hr =>
    obtain ⟨htag, -, hst⟩ := State.records_eq.mp hr
    simpa [TagRecordOk, htag, hst] using h
  | reset hr | tagExhausted skipped hr =>
    obtain ⟨htag, -, hst⟩ := State.records_eq.mp hr
    simp [TagRecordOk, htag, hst]
  | tag skipped w b1 hw hr =>
    obtain ⟨htag, -, hst⟩ := State.records_eq.mp hr
    rw [tagRecordOk_iff, htag, hst]
    exact ⟨by simp, fun _ => ⟨b1, hw, by simp⟩⟩

theorem RecordWrite.keeps_lenRecordOk (h : LenRecordOk s) : LenRecordOk t := by
  cases hwrite with
  | unchanged hr | error c hr | clear hr | tagExhausted skipped hr | tag skipped w b1 hw hr =>
    obtain ⟨-, hlen, hst⟩ := State.records_eq.mp hr
    simpa [LenRecordOk, hlen, hst] using h
  | reset hr | lenExhausted long hr | lenInvalid hr =>
    obtain ⟨-, hlen, hst⟩ := State.records_eq.mp hr
    simp [LenRecordOk, hlen, hst]
  | len long w hw hr =>
    obtain ⟨-, hlen, hst⟩ := State.records_eq.mp hr
    simpa [LenRecordOk, hlen, hst] using hw

end Keep

/-! ### The obligations -/

/-- Settles O30: a step's writes of TAG and ST keep their reserved bits 0. -/
theorem reservedBitsStayZero : Obligations.ReservedBitsStayZero :=
  fun _ _ h hstep => (step_recordWrite hstep).keeps_reservedZero h

/-- Settles O4: a step keeps IN in canonical form, and its writes of TAG, LEN and ST keep each record. -/
theorem invariantIsKeptByEveryStep : Obligations.InvariantIsKeptByEveryStep := by
  rintro s t ⟨hwf, hreserved, herror, htag, hlen⟩ hstep
  have hwrite := step_recordWrite hstep
  exact ⟨step_keeps_wf hstep hwf, hwrite.keeps_reservedZero hreserved, hwrite.keeps_errorRecordOk herror,
    hwrite.keeps_tagRecordOk htag, hwrite.keeps_lenRecordOk hlen⟩

/-- Settles O38: reset writes each register 0. -/
theorem registersAreZeroAfterReset : Obligations.RegistersAreZeroAfterReset := ⟨rfl, rfl, rfl, rfl, rfl⟩

/-- Settles O54: IN is listed empty, and with every register 0 no flag of ST says anything of TAG, LEN or ECODE. -/
theorem invariantHoldsAtReset : Obligations.InvariantHoldsAtReset := by
  have hwf : State.reset.mem.wf := by decide
  have hst : State.reset.st = 0 := rfl
  have htag : State.reset.tag = 0 := rfl
  have hlen : State.reset.len = 0 := rfl
  refine ⟨hwf, ?_, ?_, ?_, ?_⟩
  · simp [ReservedZero, hst, htag]
  · simp [ErrorRecordOk, hst]
  · simp [TagRecordOk, hst, htag]
  · simp [LenRecordOk, hst, hlen]

end Sys2Proof.Machine
end

section
/-! Proofs for 10_state.md, the text of a tag: TBYTES of a TAG that holds a tag field are its bytes, and their text is
two digits a byte (rules R19, R20). -/

namespace Sys2Proof.Machine

/-! ### The bytes of a tag -/

/-- A byte of a word, as a number. -/
theorem toNat_byteOf (w : Word) (lo : Nat) : (w.extractLsb' lo 8).toNat = w.toNat / 2 ^ lo % 256 := by
  rw [BitVec.extractLsb'_toNat, Nat.shiftRight_eq_div_pow]

theorem toNat_tagLenField (w : Word) : (tagLenField w).toNat = w.toNat / 2 ^ 24 % 4 := by
  rw [tagLenField, BitVec.extractLsb'_toNat, Nat.shiftRight_eq_div_pow]

/-- The lists of 1 to 3 bytes. -/
theorem list_cases_of_length {tb : List Byte} (h1 : 1 ≤ tb.length) (h3 : tb.length ≤ 3) :
    (∃ a, tb = [a]) ∨ (∃ a b, tb = [a, b]) ∨ ∃ a b c, tb = [a, b, c] := by
  match tb with
  | [] => exact absurd h1 (by decide)
  | [a] => exact .inl ⟨a, rfl⟩
  | [a, b] => exact .inr (.inl ⟨a, b, rfl⟩)
  | [a, b, c] => exact .inr (.inr ⟨a, b, c, rfl⟩)
  | _ :: _ :: _ :: _ :: bs =>
    simp only [List.length_cons] at h3
    omega

/-- The bytes of a TAG are those of the tag field it was packed from, first byte most significant (rules R19, R20). -/
theorem tagByteList_eq {w : Word} {tb : List Byte} (h1 : 1 ≤ tb.length) (h3 : tb.length ≤ 3)
    (hw : w.toNat = tb.length * 2 ^ 24 + bigEndian tb) : tagByteList w = tb := by
  have hlt := bigEndian_lt_tbytes h3
  have hlen : (tagLenField w).toNat = tb.length := by rw [toNat_tagLenField]; omega
  rw [tagByteList, hlen]
  obtain ⟨a, rfl⟩ | ⟨a, b, rfl⟩ | ⟨a, b, c, rfl⟩ := list_cases_of_length h1 h3
  · have ha := a.isLt
    have hbytes : w.toNat = 2 ^ 24 + a.toNat := by simpa [bigEndian] using hw
    simp only [List.length_cons, List.length_nil, List.cons.injEq, ← BitVec.toNat_inj, toNat_byteOf, and_true]
    omega
  · have ha := a.isLt
    have hb := b.isLt
    have hbytes : w.toNat = 2 * 2 ^ 24 + (a.toNat * 256 + b.toNat) := by simpa [bigEndian] using hw
    simp only [List.length_cons, List.length_nil, List.cons.injEq, ← BitVec.toNat_inj, toNat_byteOf, and_true]
    omega
  · have ha := a.isLt
    have hb := b.isLt
    have hc := c.isLt
    have hbytes : w.toNat = 3 * 2 ^ 24 + ((a.toNat * 256 + b.toNat) * 256 + c.toNat) := by
      simpa [bigEndian] using hw
    simp only [List.length_cons, List.length_nil, List.cons.injEq, ← BitVec.toNat_inj, toNat_byteOf, and_true]
    omega

/-! ### The text -/

/-- The uppercase hexadecimal digits (rule R20). -/
def upperDigits : List Char := ['0', '1', '2', '3', '4', '5', '6', '7', '8', '9', 'A', 'B', 'C', 'D', 'E', 'F']

theorem upperDigits_hexChar : ∀ {d : Nat}, d < 16 → upperDigits[d]? = some (hexChar true d) := by decide

/-- A TAG that holds a tag field has its text (rule R20). -/
theorem tagText_eq {w : Word} {tb : List Byte} (h1 : 1 ≤ tb.length) (h3 : tb.length ≤ 3)
    (hw : w.toNat = tb.length * 2 ^ 24 + bigEndian tb) : tagText w = some (hexText true tb) := by
  rw [tagText, tagByteList_eq h1 h3 hw]
  cases tb with
  | nil => simp at h1
  | cons b bs => rfl

theorem length_hexText (upper : Bool) (bs : List Byte) : (hexText upper bs).length = 2 * bs.length := by
  induction bs with
  | nil => rfl
  | cons b bs ih => simp [hexText, ih]; omega

/-- The high part alone decides the digits from its place on, in base 16. -/
theorem digit_high (a : Nat) {x n : Nat} (hx : x < 16 ^ n) (k : Nat) :
    (a * 16 ^ n + x) / 16 ^ (n + k) = a / 16 ^ k := by
  rw [Nat.pow_add, ← Nat.div_div_eq_div_mul, Nat.mul_comm a, Nat.mul_add_div (Nat.pow_pos (by decide)),
    Nat.div_eq_of_lt hx, Nat.add_zero]

/-- The low part alone decides the digits below it. -/
theorem digit_low (a x : Nat) {n k : Nat} (hk : k < n) : (a * 16 ^ n + x) / 16 ^ k % 16 = x / 16 ^ k % 16 := by
  obtain ⟨d, rfl⟩ : ∃ d, n = k + (d + 1) := ⟨n - k - 1, by omega⟩
  have hsplit : a * 16 ^ (k + (d + 1)) = 16 ^ k * (16 * (a * 16 ^ d)) := by
    rw [Nat.pow_add, Nat.pow_succ, Nat.mul_left_comm, Nat.mul_comm (16 ^ d) 16, Nat.mul_left_comm a 16]
  rw [hsplit, Nat.mul_add_div (Nat.pow_pos (by decide)), Nat.mul_add_mod]

/-- The digit at a position of the text is the base-16 digit of the bytes as a number, most significant first. -/
theorem getElem?_hexText : ∀ (bs : List Byte) {i : Nat}, i < 2 * bs.length →
    (hexText true bs)[i]? = upperDigits[bigEndian bs / 16 ^ (2 * bs.length - 1 - i) % 16]?
  | [], i, hi => by simp at hi
  | b :: bs, i, hi => by
    have hb := b.isLt
    have hpow : 256 ^ bs.length = 16 ^ (2 * bs.length) := by rw [Nat.pow_mul, show (16 : Nat) ^ 2 = 256 by decide]
    have hlt : bigEndian bs < 16 ^ (2 * bs.length) := hpow ▸ bigEndian_lt bs
    rw [bigEndian_cons, hpow, List.length_cons, hexText]
    rw [List.length_cons] at hi
    match i, hi with
    | 0, _ =>
      rw [show 2 * (bs.length + 1) - 1 - 0 = 2 * bs.length + 1 by omega, digit_high _ hlt,
        upperDigits_hexChar (by omega), List.getElem?_cons_zero, Nat.mod_eq_of_lt (by omega), Nat.pow_one]
    | 1, _ =>
      rw [show 2 * (bs.length + 1) - 1 - 1 = 2 * bs.length + 0 by omega, digit_high _ hlt,
        upperDigits_hexChar (by omega), List.getElem?_cons_succ, List.getElem?_cons_zero, Nat.pow_zero, Nat.div_one]
    | i + 2, hi =>
      rw [List.getElem?_cons_succ, List.getElem?_cons_succ, getElem?_hexText bs (by omega),
        show 2 * (bs.length + 1) - 1 - (i + 2) = 2 * bs.length - 1 - i by omega, digit_low _ _ (by omega)]

/-- Settles O32: the bytes of TAG are a tag field's, and their text is its number's digits. -/
theorem tagTextIsTwoDigitsAByte : Obligations.TagTextIsTwoDigitsAByte := by
  rintro s ⟨-, -, -, htag, -⟩
  obtain ⟨hnone, hsome⟩ := tagRecordOk_iff.mp htag
  refine ⟨fun htok => ?_, fun htok => ?_⟩
  · rw [(hnone htok).1]
    rfl
  · obtain ⟨b1, hholds, -⟩ := hsome htok
    obtain ⟨tb, h1, h3, hw⟩ := hholds.bytes
    have hlt := bigEndian_lt_tbytes h3
    have hlen : (hexText true tb).length = 2 * (s.tag.toNat / 2 ^ 24) := by rw [length_hexText]; omega
    refine ⟨hexText true tb, tagText_eq h1 h3 hw, hlen, fun i hi => ?_⟩
    rw [show s.tag.toNat % 2 ^ 24 = bigEndian tb by omega, length_hexText]
    exact getElem?_hexText tb (length_hexText true tb ▸ hi)

end Sys2Proof.Machine
end

section
/-! Proofs for 20_memory.md, the host's writes: what IN holds and what reads give after one (rules R33, R43), and while
the host races with a command (rules R43, R118). -/

namespace Sys2Proof.Machine

/-! ### Writes and the bytes of IN -/

theorem Memory.byteAt_write {m m' : Memory} {a : Nat} {b : Byte} (h : m.write a b = some m') (hwf : m.wf) (x : Nat) :
    m'.byteAt x = if a = x then b else m.byteAt x := by
  obtain ⟨-, rfl⟩ := Memory.write_eq_some.mp h
  obtain ⟨-, hrising, -⟩ := hwf
  by_cases hx : a = x
  · subst hx
    rw [if_pos rfl]
    exact cellAt_putCell_same a b m.cells hrising
  · rw [if_neg hx]
    exact cellAt_putCell_other (Ne.symm hx) b m.cells

theorem Memory.write_frame {m m' : Memory} {a : Nat} {b : Byte} (h : m.write a b = some m') :
    m'.size = m.size ∧ m'.erratic = m.erratic := by
  obtain ⟨-, rfl⟩ := Memory.write_eq_some.mp h
  exact ⟨rfl, rfl⟩

/-- A read depends on INSIZE, on whether the address is erratic, and on the byte there (rules R35, R118). -/
theorem Memory.read_congr {m m' : Memory} {a : Nat} (hsize : m'.size = m.size)
    (herratic : a ∈ m'.erratic ↔ a ∈ m.erratic) (hbyte : m'.byteAt a = m.byteAt a) (d : Nat) :
    m'.read a d = m.read a d := by
  simp [Memory.read, hsize, herratic, hbyte]

/-- The writes after the first are made over IN with the first one made. -/
theorem Memory.writeAll_cons {m m' : Memory} {c : Host.Cell} {cs : List Host.Cell} :
    m.writeAll (c :: cs) = some m' ↔ ∃ m1, m.write c.1 c.2 = some m1 ∧ m1.writeAll cs = some m' := by
  cases h : m.write c.1 c.2 <;> simp [Memory.writeAll, h]

theorem Memory.writeAll_frame : ∀ {ws : List Host.Cell} {m m' : Memory}, m.writeAll ws = some m' →
    m'.size = m.size ∧ m'.erratic = m.erratic
  | [], m, m', h => by
    cases h
    exact ⟨rfl, rfl⟩
  | c :: cs, m, m', h => by
    obtain ⟨m1, h1, hrest⟩ := Memory.writeAll_cons.mp h
    obtain ⟨hsize1, herratic1⟩ := Memory.write_frame h1
    obtain ⟨hsize, herratic⟩ := Memory.writeAll_frame hrest
    exact ⟨hsize.trans hsize1, herratic.trans herratic1⟩

/-- After a list of writes IN holds the last byte written at an address, or the byte it held before. -/
theorem Memory.byteAt_writeAll : ∀ {ws : List Host.Cell} {m m' : Memory}, m.writeAll ws = some m' → m.wf → ∀ x,
    m'.byteAt x = ((ws.reverse.find? (fun c => c.1 == x)).map Prod.snd).getD (m.byteAt x)
  | [], m, m', h, _, x => by
    cases h
    rfl
  | c :: cs, m, m', h, hwf, x => by
    obtain ⟨m1, h1, hrest⟩ := Memory.writeAll_cons.mp h
    rw [Memory.byteAt_writeAll hrest (Memory.write_wf h1 hwf) x, Memory.byteAt_write h1 hwf, List.reverse_cons,
      List.find?_append]
    cases cs.reverse.find? (fun c => c.1 == x) with
    | some d => rfl
    | none => by_cases hx : c.1 = x <;> simp [hx]

theorem Memory.writeAll_of_inside {m : Memory} {ws : List Host.Cell} (hin : ∀ c ∈ ws, c.1 < m.size) :
    ∃ m', m.writeAll ws = some m' := by
  refine Option.ne_none_iff_exists'.mp fun hnone => ?_
  obtain ⟨c, hc, hout⟩ := Memory.writeAll_eq_none.mp hnone
  exact absurd (hin c hc) (Nat.not_lt.mpr hout)

/-! ### The obligations -/

/-- Settles O11: the step puts one cell, and a read depends on nothing of IN but the byte at its address, INSIZE and the
erratic addresses. -/
theorem hostWriteIsSeenByLaterReads : Obligations.HostWriteIsSeenByLaterReads := by
  intro s rest a b hwf hport hin
  obtain ⟨m, hm⟩ : ∃ m, s.mem.write a b = some m := ⟨_, Memory.write_eq_some.mpr ⟨hin, rfl⟩⟩
  obtain ⟨hsize, herratic⟩ := Memory.write_frame hm
  have hsame : m.byteAt a = b := by rw [Memory.byteAt_write hm hwf, if_pos rfl]
  have hstep : step s = .next { s with mem := m, port := rest } :=
    (step_cons hport).trans (hostWrite_inside (s := s.setPort rest) hm)
  refine ⟨m, hstep, hsame, fun hplain d => ?_, fun x hx => ?_, hsize, herratic, Memory.write_wf hm hwf⟩
  · rw [Memory.read_inside (hsize ▸ hin), if_neg (herratic ▸ hplain), hsame]
  · have hother : m.byteAt x = s.mem.byteAt x := by rw [Memory.byteAt_write hm hwf, if_neg hx.symm]
    exact ⟨hother, Memory.read_congr hsize (by rw [herratic]) hother⟩

/-- Settles O12: the race makes exactly the written addresses erratic besides those that were, and the writes are made
after the command. -/
theorem racingReadsAreFreeBytes : Obligations.RacingReadsAreFreeBytes := by
  intro s rest cmd data ws hwf hport hin
  refine ⟨fun c hc d => ?_, fun a ha d => ?_, ?_⟩
  · rw [Memory.read_inside (m := s.mem.disturb ws) (hin c hc),
      if_pos (Memory.mem_disturb.mpr (.inr ⟨c, hc, rfl⟩))]
  · have hnot : ¬ ∃ c ∈ ws, c.1 = a := fun ⟨c, hc, hca⟩ => ha c hc hca
    exact Memory.read_congr (Memory.disturb_size ..) (by rw [Memory.mem_disturb, or_iff_left hnot])
      (Memory.disturb_byteAt ..) d
  · obtain ⟨m, hm⟩ := Memory.writeAll_of_inside hin
    obtain ⟨u, hu⟩ := acceptCommand_completes cmd data ((s.setPort rest).setMem (s.mem.disturb ws))
    obtain ⟨hsize, herratic⟩ := Memory.writeAll_frame hm
    have hstep : step s = .next (u.setMem m) :=
      (step_cons hport).trans (racingCommand_inside (s := s.setPort rest) hm hu)
    exact ⟨u, m, hu, hstep, Memory.writeAll_wf hm hwf, hsize, herratic, Memory.byteAt_writeAll hm hwf⟩

end Sys2Proof.Machine
end

section
/-! Proofs for 20_memory.md, the bytes LPARSE reads: a long form's value is its bytes read big-endian (rule R36). -/

namespace Sys2Proof.Machine

/-! ### The value of a long form -/

/-- One byte taken into a length is a digit in base 256, in 32 bits (rules R36, R83). -/
theorem accByte_ofNat (n : Nat) (d : Byte) :
    accByte (BitVec.ofNat 32 n) d = BitVec.ofNat 32 (n * 256 + d.toNat) := by
  have hd := d.isLt
  have hdigit : (n % 2 ^ 24) <<< 8 ||| d.toNat = n % 2 ^ 24 * 256 + d.toNat := by
    rw [← Nat.shiftLeft_add_eq_or_of_lt (by omega), Nat.shiftLeft_eq]
  have hshift : (BitVec.ofNat 32 n <<< 8).toNat = (n % 2 ^ 24) <<< 8 := by
    rw [BitVec.toNat_shiftLeft, BitVec.toNat_ofNat, Nat.shiftLeft_eq, Nat.shiftLeft_eq]
    omega
  have hzext : (zextByte d).toNat = d.toNat := by
    rw [zextByte, BitVec.toNat_setWidth]
    omega
  apply BitVec.eq_of_toNat_eq
  rw [accByte, BitVec.toNat_or, hshift, hzext, hdigit, BitVec.toNat_ofNat]
  omega

theorem foldl_accByte_ofNat (bs : List Byte) (n : Nat) :
    bs.foldl accByte (BitVec.ofNat 32 n) = BitVec.ofNat 32 (bs.foldl (fun acc b => acc * 256 + b.toNat) n) := by
  induction bs generalizing n with
  | nil => rfl
  | cons b bs ih => rw [List.foldl_cons, List.foldl_cons, accByte_ofNat, ih]

/-- The bytes of a long form, accumulated, are their number (rules R36, R84). -/
theorem foldl_accByte (bs : List Byte) : bs.foldl accByte 0 = BitVec.ofNat 32 (bigEndian bs) :=
  foldl_accByte_ofNat bs 0

/-- Bytes read big-endian, as the sum of each byte at its place. -/
theorem bigEndian_map_range (f : Nat → Byte) (n : Nat) :
    bigEndian ((List.range n).map f) = ((List.range n).map fun i => (f i).toNat * 256 ^ (n - 1 - i)).sum := by
  induction n generalizing f with
  | zero => rfl
  | succ n ih =>
    have hplace : ∀ i, n + 1 - 1 - (i + 1) = n - 1 - i := fun i => by omega
    rw [List.range_succ_eq_map, List.map_cons, List.map_map, List.map_cons, List.map_map, bigEndian_cons, ih,
      List.sum_cons, List.length_map, List.length_range]
    simp only [Function.comp_def, Nat.succ_eq_add_one, hplace]
    rfl

/-- On plain memory the bytes of the range from the `k`-th on are those IN holds there. -/
theorem take_drop_rangeBytes_plain {s : State} (h : PlainRange s) {k n : Nat}
    (hn : k + n ≤ (rangeBytes s).length) :
    ((rangeBytes s).drop k).take n = (List.range n).map fun i => s.mem.byteAt (s.cur.toNat + k + i) := by
  apply List.ext_getElem
  · rw [List.length_take, List.length_drop, List.length_map, List.length_range]
    omega
  · intro i hi _
    have hlen := length_rangeBytes s
    have hi' : i < n := Nat.lt_of_lt_of_le hi (List.length_take_le ..)
    simp only [List.getElem_take, List.getElem_drop, getElem_rangeBytes, List.getElem_map, List.getElem_range]
    rw [rangeByte_plain h (by omega), Nat.add_assoc]

/-! ### LPARSE over a long form -/

/-- The classifiers on the marker byte of a long form (rules R71 to R73). -/
theorem marker_classified {b : Byte} {n : Nat} (h1 : 1 ≤ n) (h4 : n ≤ 4) (hb : b.toNat = 0x80 + n) :
    lenValid b = true ∧ lenMultiByte b = true ∧ (lenField b).toNat = n := by
  rw [lenValid_eq, lenMultiByte_eq, lenField, BitVec.extractLsb'_toNat, decide_eq_true_eq, decide_eq_true_eq]
  exact ⟨by omega, by omega, by omega⟩

/-- LPARSE over a marker byte and all the bytes it counts (rules R83, R84). -/
theorem lengthPhase_long {s : State} {n : Nat} (h1 : 1 ≤ n) (h4 : n ≤ 4) (hn : n + 1 ≤ (rangeBytes s).length)
    (hmarker : (rangeByte s 0).toNat = 0x80 + n) :
    lengthPhase s =
      lenDone (BitVec.ofNat 32 (bigEndian (((rangeBytes s).drop 1).take n))) true (s.advance (1 + n)) := by
  have hle := length_rangeBytes_le s
  obtain ⟨hvalid, hmulti, hcount⟩ := marker_classified h1 h4 hmarker
  have hfirst : nextByte s = .byte (rangeByte s 0) (s.advance 1) := by
    rw [nextByte_start, if_neg (by omega), if_neg (by omega)]
  have hrest := longLength_advance (s := s) (n := n) (k := 1) 0 (by omega)
  rw [if_pos (by omega), foldl_accByte] at hrest
  simp only [lengthPhase, hfirst, hvalid, hmulti, hcount, hrest, Bool.not_true, Bool.false_eq_true, if_false, if_true]

/-- What a long form leaves where IN is plain memory: no free byte is drawn (rule R85). -/
theorem lenDone_advance_plain {s : State} (h : PlainRange s) {k : Nat} (hk : k ≤ s.rangeLen) (v : Word) :
    lenDone v true (s.advance k) =
      { s with
        cur := BitVec.ofNat 32 (s.cur.toNat + k)
        len := v
        st := lenStatus s.st true false false true
        resp := some { rsp := v, rerr := false } } := by
  rw [lenDone, withLenFlags_eq]
  apply State.eq_of_fields
  case hcur => exact word_eq_ofNat (toNat_advance hk)
  case hdraws => simp [erraticReads_plain h hk]
  all_goals rfl

/-- Settles O17: the bytes LPARSE accumulates are those IN holds after the marker, and their number is the sum. -/
theorem longFormIsBigEndian : Obligations.LongFormIsBigEndian := by
  intro s n hplain h1 h4 hend hin hmarker value
  have hlen : n + 1 ≤ (rangeBytes s).length := by rw [length_rangeBytes]; omega
  have hrange := length_rangeBytes_le s
  have hfirst : (rangeByte s 0).toNat = 0x80 + n := by rw [rangeByte_plain hplain (by omega)]; exact hmarker
  have hbytes := take_drop_rangeBytes_plain hplain (k := 1) (n := n) (by omega)
  have hvalue : BitVec.ofNat 32 (bigEndian (((rangeBytes s).drop 1).take n)) = value := by
    rw [hbytes, bigEndian_map_range]
  calc exec .lparse s
      _ = .next (lengthPhase s) := rfl
      _ = .next (lenDone value true (s.advance (1 + n))) := by rw [lengthPhase_long h1 h4 hlen hfirst, hvalue]
      _ = _ := by rw [lenDone_advance_plain hplain (by omega), Nat.add_comm 1 n, Nat.add_assoc]

end Sys2Proof.Machine
end

section
/-! Proofs for 20_memory.md, the range: a parse command does the same over every IN that reads the same in `[CUR, END)`
(rules R34, R76). -/

namespace Sys2Proof.Machine

/-! ### One read -/

/-- `m` gives the same reads as IN at every address of the range not yet consumed. -/
def SameReads (s : State) (m : Memory) : Prop :=
  ∀ a, s.cur.toNat ≤ a → a < s.endr.toNat → ∀ d, s.mem.read a d = m.read a d

/-- A state with a smaller range of the same IN. -/
theorem SameReads.mono {s t : State} {m : Memory} (h : SameReads s m) (hcur : s.cur.toNat ≤ t.cur.toNat)
    (hend : t.endr = s.endr) (hmem : t.mem = s.mem) : SameReads t m := by
  intro a ha hlt
  rw [hmem]
  exact h a (Nat.le_trans hcur ha) (hend ▸ hlt)

/-- A parse command's next read finds the same in both buffers. -/
theorem nextByte_setMem {s : State} {m : Memory} (h : SameReads s m) :
    (nextByte s = .exhausted ∧ nextByte (s.setMem m) = .exhausted) ∨
    (nextByte s = .access ∧ nextByte (s.setMem m) = .access) ∨
    ∃ b t, nextByte s = .byte b t ∧ nextByte (s.setMem m) = .byte b (t.setMem m) ∧ SameReads t m := by
  by_cases hend : s.endr ≤ s.cur
  · exact .inl ⟨by simp [nextByte, hend], by simp [nextByte, hend]⟩
  · have hlt : s.cur.toNat < s.endr.toNat := BitVec.not_le.mp hend
    have hsame := h s.cur.toNat (Nat.le_refl _) hlt s.draws
    cases hread : s.mem.read s.cur.toNat s.draws with
    | none => exact .inr (.inl ⟨by simp [nextByte, hend, hread], by simp [nextByte, hend, ← hsame, hread]⟩)
    | some r =>
      refine .inr (.inr ⟨r.1, (s.setCur (s.cur + 1)).setDraws r.2, by simp [nextByte, hend, hread], ?_, ?_⟩)
      · simp only [nextByte, State.setMem_endr, State.setMem_cur, State.setMem_mem, State.setMem_draws, hend,
          ← hsame, hread, if_false]
        rfl
      · have hcur : (s.cur + 1).toNat = s.cur.toNat + 1 :=
          toNat_advance (s := s) (n := 1) (by unfold State.rangeLen; omega)
        exact h.mono (by rw [State.setDraws_cur, State.setCur_cur, hcur]; omega) rfl rfl

/-! ### TPARSE -/

theorem thirdTagByte_setMem {s0 s : State} {m : Memory} (h : SameReads s m) (b1 b2 : Byte) (skipped : Bool) :
    thirdTagByte (s0.setMem m) b1 b2 skipped (s.setMem m) = (thirdTagByte s0 b1 b2 skipped s).setMem m := by
  unfold thirdTagByte
  obtain ⟨h1, h2⟩ | ⟨h1, h2⟩ | ⟨b, t, h1, h2, -⟩ := nextByte_setMem h <;> rw [h1, h2] <;> rfl

theorem secondTagByte_setMem {s0 s : State} {m : Memory} (h : SameReads s m) (b1 : Byte) (skipped : Bool) :
    secondTagByte (s0.setMem m) b1 skipped (s.setMem m) = (secondTagByte s0 b1 skipped s).setMem m := by
  unfold secondTagByte
  obtain ⟨h1, h2⟩ | ⟨h1, h2⟩ | ⟨b2, t, h1, h2, ht⟩ := nextByte_setMem h <;> rw [h1, h2]
  · rfl
  · rfl
  · cases hlast : tagLast b2 with
    | true => simp only [hlast, if_true]; rfl
    | false => simpa [hlast] using thirdTagByte_setMem ht b1 b2 skipped

/-- The skip loop ends in the same way over both buffers. -/
theorem findFirst_setMem {m : Memory} : ∀ (fuel : Nat) (skipped : Bool) {s : State}, SameReads s m →
    (∃ k t, findFirst fuel skipped s = .exhausted k t ∧
      findFirst fuel skipped (s.setMem m) = .exhausted k (t.setMem m)) ∨
    (∃ t, findFirst fuel skipped s = .access t ∧ findFirst fuel skipped (s.setMem m) = .access (t.setMem m)) ∨
    ∃ b1 k t, findFirst fuel skipped s = .found b1 k t ∧
      findFirst fuel skipped (s.setMem m) = .found b1 k (t.setMem m) ∧ SameReads t m
  | 0, skipped, s, _ => .inl ⟨skipped, s, rfl, rfl⟩
  | fuel + 1, skipped, s, h => by
    unfold findFirst
    obtain ⟨h1, h2⟩ | ⟨h1, h2⟩ | ⟨b1, t, h1, h2, ht⟩ := nextByte_setMem h <;> rw [h1, h2]
    · exact .inl ⟨skipped, s, rfl, rfl⟩
    · exact .inr (.inl ⟨s, rfl, rfl⟩)
    · cases hvalid : tagValid b1 .first with
      | true => exact .inr (.inr ⟨b1, skipped, t, by simp [hvalid], by simp [hvalid], ht⟩)
      | false => simpa only [hvalid, Bool.false_eq_true, if_false] using findFirst_setMem fuel true ht

theorem tagPhase_setMem {s : State} {m : Memory} (h : SameReads s m) :
    tagPhase (s.setMem m) = (tagPhase s).setMem m := by
  unfold tagPhase
  rw [show (s.setMem m).rangeLen = s.rangeLen from rfl]
  obtain ⟨k, t, h1, h2⟩ | ⟨t, h1, h2⟩ | ⟨b1, k, t, h1, h2, ht⟩ := findFirst_setMem s.rangeLen false h <;>
    rw [h1, h2]
  · rfl
  · rfl
  · cases hmulti : tagMultiByte b1 with
    | true => simpa [hmulti] using secondTagByte_setMem ht b1 k
    | false => simp only [hmulti]; rfl

/-! ### LPARSE -/

theorem longLength_setMem {s0 : State} {m : Memory} : ∀ (n : Nat) (acc : Word) {s : State}, SameReads s m →
    longLength (s0.setMem m) n acc (s.setMem m) = (longLength s0 n acc s).setMem m
  | 0, _, _, _ => rfl
  | n + 1, acc, s, h => by
    unfold longLength
    obtain ⟨h1, h2⟩ | ⟨h1, h2⟩ | ⟨d, t, h1, h2, ht⟩ := nextByte_setMem h <;> rw [h1, h2]
    · rfl
    · rfl
    · exact longLength_setMem n (accByte acc d) ht

theorem lengthPhase_setMem {s : State} {m : Memory} (h : SameReads s m) :
    lengthPhase (s.setMem m) = (lengthPhase s).setMem m := by
  unfold lengthPhase
  obtain ⟨h1, h2⟩ | ⟨h1, h2⟩ | ⟨l0, t, h1, h2, ht⟩ := nextByte_setMem h <;> rw [h1, h2]
  · rfl
  · rfl
  · cases hvalid : lenValid l0 with
    | false => simp only [hvalid]; rfl
    | true =>
      cases hmulti : lenMultiByte l0 with
      | true => simpa [hvalid, hmulti] using longLength_setMem (s0 := s) (lenField l0).toNat 0 ht
      | false => simp only [hvalid, hmulti]; rfl

/-! ### The obligation -/

/-- Settles O18: each read finds the same in both buffers, so each phase ends in the same state but for IN. -/
theorem parseReadsOnlyTheRange : Obligations.ParseReadsOnlyTheRange := by
  rintro i s t m (rfl | rfl) hsame h
  · cases h
    exact congrArg Host.Outcome.next (tagPhase_setMem hsame)
  · cases h
    exact congrArg Host.Outcome.next (lengthPhase_setMem hsame)

end Sys2Proof.Machine
end

section
/-! Proofs for 30_encoding.md, the words: a command word whose must-be-zero bits are 0 is the encoder's word over its
own fields (rules R48, R53, R60), so that decoding and encoding undo each other (rules R54, R55). -/

namespace Sys2Proof

/-! ### Words with the must-be-zero bits 0 -/

theorem clearOfB_iff_cmdWord (cmd : Word) :
    cmd &&& reservedOfB = 0 ↔ cmdWord (opField cmd) 0#4 0#2 (bField cmd) = cmd := by
  rw [reservedOfB_clear, BitVec.toNat_eq, toNat_cmdWord, toNat_opField, toNat_bField]
  simp only [BitVec.toNat_zero]
  omega

theorem clearOfBnB_iff_cmdWord (cmd : Word) :
    cmd &&& reservedOfBnB = 0 ↔ cmdWord (opField cmd) 0#4 (bnField cmd) (bField cmd) = cmd := by
  rw [reservedOfBnB_clear, BitVec.toNat_eq, toNat_cmdWord, toNat_opField, toNat_bnField, toNat_bField]
  simp only [BitVec.toNat_zero]
  omega

theorem clearOfNone_iff_cmdWord (cmd : Word) :
    cmd &&& reservedOfNone = 0 ↔ cmdWord (opField cmd) 0#4 0#2 0#8 = cmd := by
  rw [reservedOfNone_clear, BitVec.toNat_eq, toNat_cmdWord, toNat_opField]
  simp only [BitVec.toNat_zero]
  omega

theorem clearOfRs_iff_cmdWord (cmd : Word) :
    cmd &&& reservedOfRs = 0 ↔ cmdWord (opField cmd) (rsField cmd) 0#2 0#8 = cmd := by
  rw [reservedOfRs_clear, BitVec.toNat_eq, toNat_cmdWord, toNat_opField, toNat_rsField]
  simp only [BitVec.toNat_zero]
  omega

/-! ### Decoding undoes encoding -/

section Clear
variable (op : Byte) (rs : BitVec 4) (bn : BitVec 2) (b : Byte) (i : Instr)

theorem ifReservedClear_cmdWord_b : ifReservedClear (cmdWord op 0#4 0#2 b) reservedOfB i = .ok i :=
  if_pos ((clearOfB_iff_cmdWord _).mpr (by simp))

theorem ifReservedClear_cmdWord_bnB : ifReservedClear (cmdWord op 0#4 bn b) reservedOfBnB i = .ok i :=
  if_pos ((clearOfBnB_iff_cmdWord _).mpr (by simp))

theorem ifReservedClear_cmdWord_none : ifReservedClear (cmdWord op 0#4 0#2 0#8) reservedOfNone i = .ok i :=
  if_pos ((clearOfNone_iff_cmdWord _).mpr (by simp))

theorem ifReservedClear_cmdWord_rs : ifReservedClear (cmdWord op rs 0#2 0#8) reservedOfRs i = .ok i :=
  if_pos ((clearOfRs_iff_cmdWord _).mpr (by simp))

end Clear

/-- Settles O1: the encoder's word has the OP of the command's row, its row's must-be-zero bits are 0, and its fields
stand for the operands. -/
theorem decodeOfEncodeIsTheCommand : Obligations.DecodeOfEncodeIsTheCommand := by
  intro i
  unfold decode
  cases i with
  | tclass b | tcons b | tprim b | tmulti b | tlast b | lvalid b | lmulti b | lgetlen b =>
    simp [encode, Instr.opcode, ifReservedClear_cmdWord_b]
  | tvalid b n | tnumf b n => simp [encode, Instr.opcode, ifReservedClear_cmdWord_bnB]
  | tparse | lparse | clrerr => simp [encode, Instr.opcode, ifReservedClear_cmdWord_none]
  | rd r | wr r value => simp [encode, Instr.opcode, ifReservedClear_cmdWord_rs]

/-! ### Encoding undoes decoding -/

/-- A row of the opcode map: where its must-be-zero bits are 0 the word is the encoder's over its own fields, so it is
the one its command encodes to, with DATA the value of WR or 0 (rules R52, R53, R60). -/
theorem encode_of_row {cmd data m : Word} {i j : Instr} {rs : BitVec 4} {bn : BitVec 2} {b : Byte}
    (hrow : ifReservedClear cmd m i = .ok j) (hop : (opField cmd).toNat = i.opcode.toNat)
    (hword : cmd &&& m = 0 → cmdWord (opField cmd) rs bn b = cmd)
    (henc : encode i = (cmdWord i.opcode rs bn b, if i.opcode.toNat = 0x32 then data else 0)) :
    encode j = (cmd, if cmd.toNat / 2 ^ 24 = 0x32 then data else 0) := by
  obtain ⟨hclear, rfl⟩ := ifReservedClear_ok.mp hrow
  rw [henc, ← toNat_opField, ← hop, ← BitVec.eq_of_toNat_eq hop, hword hclear]

/-- Settles O6: `encode_of_row` over the rows of the opcode map, which are numbered in `decode`'s order: those that use
B, B and BN, no field, and RS. -/
theorem decodedPairEncodesBack : Obligations.DecodedPairEncodesBack := by
  intro cmd data i h
  have onB := (clearOfB_iff_cmdWord cmd).mp
  have onBnB := (clearOfBnB_iff_cmdWord cmd).mp
  have onNone := (clearOfNone_iff_cmdWord cmd).mp
  have onRs := (clearOfRs_iff_cmdWord cmd).mp
  unfold decode at h
  split at h
  case h_1 hop | h_2 hop | h_3 hop | h_4 hop | h_5 hop | h_8 hop | h_9 hop | h_10 hop =>
    exact encode_of_row h hop onB rfl
  case h_6 hop | h_7 hop => exact encode_of_row h hop onBnB (by rw [encode, ByteNo.toBits_ofBits]; rfl)
  case h_11 hop | h_12 hop | h_15 hop => exact encode_of_row h hop onNone rfl
  case h_13 hop | h_14 hop => exact encode_of_row h hop onRs (by rw [encode, RegSel.toBits_ofBits]; rfl)
  case h_16 => cases h

/-! ### Fixed words -/

/-- Settles O34: each word is the one the encoder writes for its command, so O1 decodes it. -/
theorem specWordsDecodeToTheirCommands : Obligations.SpecWordsDecodeToTheirCommands := by
  have h := decodeOfEncodeIsTheCommand
  exact ⟨h (.tclass 0x6F), h (.tvalid 0x1E .second), h (.tnumf 0x81 .second), h (.lvalid 0x84), h (.lgetlen 0x7F),
    h .tparse, h .lparse, h (.rd .st), h (.wr .endr 5), h .clrerr⟩

end Sys2Proof
end

section
/-! Proofs for 30_encoding.md, the commands: the two decode errors (rules R53, R55, R96), the use of DATA (rule R52) and
RANGE over two steps (rules R59, R119). -/

namespace Sys2Proof.Machine

/-! ### Decode errors -/

theorem acceptCommand_afterError {cmd data : Word} {c : ErrCode} (h : decode cmd data = .error c) (s : State) :
    acceptCommand cmd data s = .next (afterError (ErrCode.ecode c).toNat s) := by
  rw [acceptCommand_error h, raiseError_eq]

/-- Settles O7: no row of the opcode map has the OP, and its must-be-zero bits are not looked at. -/
theorem unlistedOpcodeRaisesIllegalOpcode : Obligations.UnlistedOpcodeRaisesIllegalOpcode := by
  intro cmd data s hop
  have hdecode : decode cmd data = .error .illegalOpcode := by
    simp only [List.mem_cons, List.not_mem_nil, or_false, not_or] at hop
    simp only [decode_by_op, hop, if_false]
  exact acceptCommand_afterError hdecode s

/-- Settles O8: for each OP of a row of rule R53 the decoder checks that row's mask. -/
theorem reservedBitSetIsNotPerformed : Obligations.ReservedBitSetIsNotPerformed := by
  intro cmd data s h
  have hdecode : decode cmd data = .error .reservedBits := by
    simp only [List.mem_cons, List.not_mem_nil, or_false] at h
    unfold decode
    rw [toNat_opField]
    obtain ⟨hop, hbits⟩ | ⟨hop, hbits⟩ | ⟨hop, hbits⟩ | ⟨hop, hbits⟩ := h
    · have hset := mt (reservedOfB_clear cmd).mp hbits
      rcases hop with hop | hop | hop | hop | hop | hop | hop | hop <;>
        (rw [hop]; exact ifReservedClear_error.mpr ⟨hset, rfl⟩)
    · have hset := mt (reservedOfBnB_clear cmd).mp hbits
      rcases hop with hop | hop <;> (rw [hop]; exact ifReservedClear_error.mpr ⟨hset, rfl⟩)
    · have hset := mt (reservedOfNone_clear cmd).mp hbits
      rcases hop with hop | hop | hop <;> (rw [hop]; exact ifReservedClear_error.mpr ⟨hset, rfl⟩)
    · have hset := mt (reservedOfRs_clear cmd).mp (by omega)
      rcases hop with hop | hop <;> (rw [hop]; exact ifReservedClear_error.mpr ⟨hset, rfl⟩)
  exact acceptCommand_afterError hdecode s

/-! ### DATA -/

/-- The row of WR is the only one that reads DATA (rule R52). -/
theorem decode_data_irrelevant {cmd : Word} (hop : cmd.toNat / 2 ^ 24 ≠ 0x32) (data1 data2 : Word) :
    decode cmd data1 = decode cmd data2 := by
  simp only [decode_by_op, hop, if_false]

/-- Settles O10: DATA reaches the command through the decoder alone, and the two WR words decode to WR CUR and
WR END. -/
theorem dataIsUsedOnlyByWr : Obligations.DataIsUsedOnlyByWr := by
  refine ⟨fun cmd data1 data2 s hop => ?_, fun data s => ⟨?_, ?_⟩⟩
  · unfold acceptCommand
    rw [decode_data_irrelevant hop data1 data2]
  · exact acceptCommand_ok (i := .wr .cur data) rfl s
  · exact acceptCommand_ok (i := .wr .endr data) rfl s

/-! ### Encoded commands on the port -/

/-- A step performs the command whose encoding is next on the port (rules R56, R60). -/
theorem step_encoded {s : State} {i : Instr} {rest : List PortEvent}
    (h : s.port = .command (encode i).1 (encode i).2 :: rest) : step s = exec i { s with port := rest } :=
  stepPerformsTheDecodedCommand s _ _ rest i h (decodeOfEncodeIsTheCommand i)

/-- Settles O55: the first step leaves WR END, e next on the port, and each step performs its command. -/
theorem rangeSetsCurThenEnd : Obligations.RangeSetsCurThenEnd := by
  intro a e s rest hport
  exact ⟨_, step_encoded (i := .wr .cur a) hport, rfl, rfl, step_encoded (i := .wr .endr e) rfl⟩

end Sys2Proof.Machine
end

section
/-! Proofs for 30_encoding.md, the responses: what each command answers (rule R57), and from it what a command word
answers by its OP. -/

namespace Sys2Proof.Machine

/-! ### The words commands answer -/

theorem bitWord_le_one (c : Bool) : (bitWord c).toNat ≤ 1 := by cases c <;> decide

theorem tagClass_le_three : ∀ b : Byte, ((tagClass b).setWidth 32).toNat ≤ 3 := by decide

theorem tagNumberField_le_127 (b : Byte) (n : ByteNo) : (tagNumberField b n).toNat ≤ 127 := by
  revert b; cases n <;> decide

theorem lenField_le_127 : ∀ b : Byte, ((lenField b).setWidth 32).toNat ≤ 127 := by decide

/-- RD's register, by the number of its selector (rules R15, R89). -/
theorem readReg_eq_getElem? (s : State) (r : RegSel) :
    readReg s r = [s.cur, s.endr, s.tag, s.len, s.st][r.toBits.toNat]? := by
  cases r with
  | undefined k =>
    have hk := k.isLt
    have hbits : (RegSel.undefined k).toBits.toNat = k.val + 5 := by
      simp only [RegSel.toBits, BitVec.toNat_ofNat]
      omega
    rw [hbits]
    rfl
  | cur | endr | tag | len | st => rfl

/-- Rule R57's table: the word a command that goes from `s` to `t` without an error answers. -/
def RowAnswer (s t : State) : Instr → Word → Prop
  | .tclass _, v => v.toNat ≤ 3
  | .tcons _, v | .tprim _, v | .tmulti _, v | .tlast _, v | .tvalid _ _, v | .lvalid _, v | .lmulti _, v => v.toNat ≤ 1
  | .tnumf _ _, v | .lgetlen _, v => v.toNat ≤ 127
  | .tparse, v => v = t.tag
  | .lparse, v => v = t.len
  | .rd r, v => readReg s r = some v
  | .wr _ _, v | .clrerr, v => v = 0

/-- What a command responds with: `(0, 1)`, or without an error the word of its row (rule R57). -/
def Responds (s t : State) (i : Instr) : Prop :=
  t.resp = some { rsp := 0, rerr := true } ∨ ∃ v, t.resp = some { rsp := v, rerr := false } ∧ RowAnswer s t i v

theorem TparseEnd.responds {s t : State} (h : TparseEnd s t) : Responds s t .tparse := by
  cases h with
  | access n => exact .inl rfl
  | exhausted | assembled => exact .inr ⟨_, rfl, rfl⟩

theorem LparseEnd.responds {s t : State} (h : LparseEnd s t) : Responds s t .lparse := by
  cases h with
  | access n => exact .inl rfl
  | exhausted | invalid | valid => exact .inr ⟨_, rfl, rfl⟩

theorem exec_responds {i : Instr} {s t : State} (h : exec i s = .next t) : Responds s t i := by
  cases i with
  | tclass b => cases h; exact .inr ⟨_, rfl, tagClass_le_three b⟩
  | tcons b | tprim b | tmulti b | tlast b | lvalid b | lmulti b => cases h; exact .inr ⟨_, rfl, bitWord_le_one _⟩
  | tvalid b n =>
    cases n with
    | zero => cases h; exact .inl rfl
    | first | second | third => cases h; exact .inr ⟨_, rfl, bitWord_le_one _⟩
  | tnumf b n =>
    cases n with
    | zero => cases h; exact .inl rfl
    | first | second | third => cases h; exact .inr ⟨_, rfl, tagNumberField_le_127 b _⟩
  | lgetlen b => cases h; exact .inr ⟨_, rfl, lenField_le_127 b⟩
  | tparse => exact (exec_tparse_end h).responds
  | lparse => exact (exec_lparse_end h).responds
  | rd r =>
    cases r with
    | undefined k => cases h; exact .inl rfl
    | cur | endr | tag | len | st => cases h; exact .inr ⟨_, rfl, rfl⟩
  | wr r value =>
    cases r with
    | cur | endr => cases h; exact .inr ⟨_, rfl, rfl⟩
    | tag | len | st | undefined k => cases h; exact .inl rfl
  | clrerr => cases h; exact .inr ⟨_, rfl, rfl⟩

/-! ### The command's row from its word -/

theorem opField_encode (i : Instr) : opField (encode i).1 = i.opcode := by
  cases i <;> rw [encode, opField_cmdWord]

/-- A word that decodes is its command's (rule R60). -/
theorem word_of_decode {cmd data : Word} {i : Instr} (h : decode cmd data = .ok i) : (encode i).1 = cmd :=
  congrArg Prod.fst (decodedPairEncodesBack cmd data i h)

theorem op_of_decode {cmd data : Word} {i : Instr} (h : decode cmd data = .ok i) :
    cmd.toNat / 2 ^ 24 = i.opcode.toNat := by
  rw [← word_of_decode h, ← toNat_opField, opField_encode]

theorem rs_of_decode_rd {cmd data : Word} {r : RegSel} (h : decode cmd data = .ok (.rd r)) :
    cmd.toNat / 2 ^ 16 % 16 = r.toBits.toNat := by
  rw [← word_of_decode h, ← toNat_rsField, encode, rsField_cmdWord]

/-- Settles O28: a decode error responds `(0, 1)`, and a command that is performed responds as its row says. -/
theorem everyCommandReturnsAResponse : Obligations.EveryCommandReturnsAResponse := by
  intro cmd data s t h
  cases hdecode : decode cmd data with
  | error c =>
    cases (acceptCommand_error hdecode s).symm.trans h
    exact ⟨_, rfl, fun _ => rfl, nofun⟩
  | ok i =>
    obtain hresp | ⟨v, hresp, hrow⟩ := exec_responds ((acceptCommand_ok hdecode s).symm.trans h)
    · exact ⟨_, hresp, fun _ => rfl, nofun⟩
    · refine ⟨_, hresp, nofun, fun _ => ?_⟩
      rw [op_of_decode hdecode]
      cases i with
      | rd r =>
        rw [RowAnswer, readReg_eq_getElem?, ← rs_of_decode_rd hdecode] at hrow
        simpa [Instr.opcode] using hrow
      | tclass | tcons | tprim | tmulti | tlast | tvalid | tnumf | lvalid | lmulti | lgetlen | tparse | lparse | wr
      | clrerr => simpa [Instr.opcode, RowAnswer] using hrow

end Sys2Proof.Machine
end

section
/-! Proofs for 30_encoding.md, the assembler: each form of a line stands for well-formed commands (rules R58, R59). -/

namespace Sys2Proof.Asm

/-- Where the line is accepted, every command it stands for is well-formed (rule R58). -/
def WritesWellFormed (o : Option (List Instr)) : Prop := ∀ is, o = some is → ∀ i ∈ is, i.wellFormed = true

/-! ### Lines in general -/

theorem WritesWellFormed.refused : WritesWellFormed none := nofun

theorem WritesWellFormed.commands {is : List Instr} (h : ∀ i ∈ is, i.wellFormed = true) :
    WritesWellFormed (some is) := by
  intro js hjs
  cases hjs
  exact h

theorem WritesWellFormed.map {α : Type} {f : α → List Instr} (h : ∀ a, ∀ i ∈ f a, i.wellFormed = true) :
    ∀ o : Option α, WritesWellFormed (o.map f)
  | none => .refused
  | some a => .commands (h a)

theorem WritesWellFormed.ite {p : Prop} [Decidable p] {o o' : Option (List Instr)} (h : WritesWellFormed o)
    (h' : WritesWellFormed o') : WritesWellFormed (if p then o else o') := by
  split
  · exact h
  · exact h'

/-! ### The operands and forms -/

/-- The assembler refuses n = 0 (rule R58). -/
theorem byteNoOperand_wellFormed {t : List Char} {n : ByteNo} (h : byteNoOperand t = some n) : n.wellFormed = true := by
  unfold byteNoOperand at h
  split at h <;> cases h <;> rfl

section Forms
variable (ops : List (List Char))

theorem byteForm_wellFormed {mk : Byte → Instr} (hmk : ∀ b, (mk b).wellFormed = true) :
    WritesWellFormed (byteForm mk ops) := by
  unfold byteForm
  split
  · exact .map (by simpa using hmk) _
  · exact .refused

theorem byteNoForm_wellFormed {mk : Byte → ByteNo → Instr} (hmk : ∀ b n, (mk b n).wellFormed = n.wellFormed) :
    WritesWellFormed (byteNoForm mk ops) := by
  unfold byteNoForm
  split
  · split
    next hn => exact .commands (by simpa [hmk] using byteNoOperand_wellFormed hn)
    next => exact .refused
  · exact .refused

theorem plainForm_wellFormed {i : Instr} (hi : i.wellFormed = true) : WritesWellFormed (plainForm i ops) := by
  unfold plainForm
  split
  · exact .commands (by simpa using hi)
  · exact .refused

theorem expand_wellFormed (p : Pseudo) : ∀ i ∈ p.expand, i.wellFormed = true := by
  cases p <;> simp [Pseudo.expand, Instr.wellFormed, ByteNo.wellFormed]

theorem pseudoByteForm_wellFormed (mk : Byte → Pseudo) : WritesWellFormed (pseudoByteForm mk ops) := by
  unfold pseudoByteForm
  split
  · exact .map (fun b => expand_wellFormed (mk b)) _
  · exact .refused

theorem rdForm_wellFormed : WritesWellFormed (rdForm ops) := by
  unfold rdForm
  split
  · exact .map (by simp [Instr.wellFormed]) _
  · exact .refused

theorem wrForm_wellFormed : WritesWellFormed (wrForm ops) := by
  unfold wrForm
  split
  · split
    · exact .commands (by simp [Instr.wellFormed])
    · exact .refused
  · exact .refused

theorem seekForm_wellFormed : WritesWellFormed (seekForm ops) := by
  unfold seekForm
  split
  · exact .map (fun w => expand_wellFormed (.seek w)) _
  · exact .refused

theorem rangeForm_wellFormed : WritesWellFormed (rangeForm ops) := by
  unfold rangeForm
  split
  · split
    · exact .commands (expand_wellFormed _)
    · exact .refused
  · exact .refused

end Forms

/-- Each mnemonic's form, in the order in which `form` compares the mnemonics. -/
theorem form_wellFormed (m : List Char) (ops : List (List Char)) : WritesWellFormed (form m ops) := by
  have byte {mk : Byte → Instr} (hmk) := byteForm_wellFormed ops (mk := mk) hmk
  have plain {i : Instr} (hi) := plainForm_wellFormed ops (i := i) hi
  have byteNo {mk : Byte → ByteNo → Instr} (hmk) := byteNoForm_wellFormed ops (mk := mk) hmk
  have pseudo {mk : Byte → Pseudo} := pseudoByteForm_wellFormed ops mk
  unfold form
  exact .ite (byte fun _ => rfl) <| .ite (byte fun _ => rfl) <| .ite (byte fun _ => rfl) <| .ite (byte fun _ => rfl) <|
    .ite (byte fun _ => rfl) <| .ite (byte fun _ => rfl) <| .ite (byte fun _ => rfl) <| .ite (byte fun _ => rfl) <|
    .ite (byteNo fun _ _ => rfl) <| .ite (byteNo fun _ _ => rfl) <|
    .ite (plain rfl) <| .ite (plain rfl) <| .ite (plain rfl) <|
    .ite (rdForm_wellFormed ops) <| .ite (wrForm_wellFormed ops) <|
    .ite pseudo <| .ite pseudo <| .ite pseudo <|
    .ite (seekForm_wellFormed ops) <| .ite (rangeForm_wellFormed ops) .refused

/-- A line is blank or one mnemonic's form. -/
theorem parseLine_wellFormed (line : List Char) : WritesWellFormed (parseLine line) := by
  unfold parseLine
  split
  · exact .commands (by simp)
  · exact form_wellFormed _ _

/-- Settles O31: every form of a line stands for well-formed commands. -/
theorem assemblerWritesWellFormedCommands : Obligations.AssemblerWritesWellFormedCommands := parseLine_wellFormed

end Sys2Proof.Asm
end

section
/-! Proofs for 41_tag_inspector.md: a command without a DATA operand decodes from its word whatever DATA is (rules R52,
R60), and each command of family T answers the word its rule computes from the operands (rules R61 to R68). -/

namespace Sys2Proof.Machine

/-! ### The word of a command -/

/-- WR apart, a command decodes from the encoder's word whatever DATA is (rule R52). -/
theorem decode_encode_of_not_wr {i : Instr} (hop : i.opcode.toNat ≠ 0x32) (data : Word) :
    decode (encode i).1 data = .ok i := by
  have hrow : (encode i).1.toNat / 2 ^ 24 ≠ 0x32 := by rwa [← toNat_opField, opField_encode]
  rw [decode_data_irrelevant hrow data (encode i).2]
  exact decodeOfEncodeIsTheCommand i

section Words
variable {i : Instr} {b : Byte} {n : ByteNo} (op : Byte) (hop : op.toNat ≠ 0x32)
include hop

/-- The word of a command over B and BN, as the sum of its fields at their places (rules R48, R50). -/
theorem decode_word_bnB (henc : encode i = (cmdWord op 0 n.toBits b, 0)) (data : Word) :
    decode (BitVec.ofNat 32 (op.toNat * 2 ^ 24 + 256 * byteNumber n + b.toNat)) data = .ok i := by
  have hopcode : i.opcode.toNat ≠ 0x32 := by rwa [← opField_encode, henc, opField_cmdWord]
  have hbn : n.toBits.toNat = byteNumber n := by cases n <;> rfl
  have hsum : (encode i).1.toNat = op.toNat * 2 ^ 24 + 256 * byteNumber n + b.toNat := by
    rw [henc, toNat_cmdWord, hbn, show (0 : BitVec 4).toNat = 0 from rfl]
    omega
  rw [← word_eq_ofNat hsum]
  exact decode_encode_of_not_wr hopcode data

/-- The word of a command over B alone. -/
theorem decode_word_b (henc : encode i = (cmdWord op 0 0 b, 0)) (data : Word) :
    decode (BitVec.ofNat 32 (op.toNat * 2 ^ 24 + b.toNat)) data = .ok i := by
  simpa [byteNumber] using decode_word_bnB (n := .zero) op hop henc data

end Words

/-! ### The answers -/

theorem exec_answered {i : Instr} {s : State} {v : Word} {n : Nat} (h : exec i s = .next (respond v s))
    (hv : v.toNat = n) : exec i s = .next (answered n s) := by
  rw [h, respond_eq_answered hv]

theorem toNat_bitWord (c : Bool) : (bitWord c).toNat = if c then 1 else 0 := by cases c <;> rfl

theorem toNat_tagClass (b : Byte) : ((tagClass b).setWidth 32).toNat = b.toNat / 64 := by
  have := b.isLt
  simp only [tagClass, BitVec.toNat_setWidth, BitVec.extractLsb'_toNat, Nat.shiftRight_eq_div_pow]
  omega

theorem toNat_bitWord_tagConstructed (b : Byte) : (bitWord (tagConstructed b)).toNat = b.toNat / 32 % 2 := by
  simp only [tagConstructed_eq, toNat_bitWord, beq_iff_eq]
  split <;> omega

theorem toNat_bitWord_not (c : Bool) : (bitWord (!c)).toNat = 1 - (bitWord c).toNat := by cases c <;> rfl

/-- The byte values that are invalid at each position (rule R66). -/
theorem toNat_bitWord_tagValid (b : Byte) (n : ByteNo) :
    (bitWord (tagValid b n)).toNat = if (byteNumber n = 1 ∨ byteNumber n = 2) ∧ b.toNat = 0x00 then 0
      else if byteNumber n = 2 ∧ (b.toNat = 0x1E ∨ b.toNat = 0x80) then 0 else 1 := by
  have hfirst : n = .first ↔ byteNumber n = 1 := by cases n <;> decide
  have hsecond : n = .second ↔ byteNumber n = 2 := by cases n <;> decide
  simp only [tagValid, hfirst, hsecond, BitVec.toNat_eq, BitVec.reduceToNat]
  split
  · rfl
  · split <;> rfl

theorem toNat_tagNumberField (b : Byte) (n : ByteNo) :
    (tagNumberField b n).toNat = if byteNumber n = 1 then b.toNat % 32 else b.toNat % 128 := by
  cases n <;> simp [tagNumberField, byteNumber] <;> omega

/-! ### The obligations -/

/-- Settles O40: the class bits are the quotient of the byte by 64. -/
theorem tclassAnswersTheClass : Obligations.TclassAnswersTheClass := fun b data _ =>
  ⟨decode_word_b 0x01 (by decide) rfl data, exec_answered rfl (toNat_tagClass b)⟩

/-- Settles O41: the answer is `bit` of the Constructed marker (rule R9). -/
theorem tconsAnswersBitFive : Obligations.TconsAnswersBitFive := fun b data _ =>
  ⟨decode_word_b 0x02 (by decide) rfl data, exec_answered rfl (toNat_bitWord_tagConstructed b)⟩

/-- Settles O42: TPRIM answers the complement of what TCONS answers. -/
theorem tprimAnswersTheComplement : Obligations.TprimAnswersTheComplement := fun b data _ =>
  ⟨decode_word_b 0x03 (by decide) rfl data,
    exec_answered rfl (by rw [toNat_bitWord_not, toNat_bitWord_tagConstructed])⟩

/-- Settles O43: the answer is `bit` of the multi-byte marker (rule R9). -/
theorem tmultiAnswersTheMultiByteMarker : Obligations.TmultiAnswersTheMultiByteMarker := fun b data _ =>
  ⟨decode_word_b 0x04 (by decide) rfl data,
    exec_answered rfl (by simp only [tagMultiByte_eq, toNat_bitWord, decide_eq_true_eq])⟩

/-- Settles O44: the answer is `bit` of the last-byte test (rule R9). -/
theorem tlastAnswersBitSevenClear : Obligations.TlastAnswersBitSevenClear := fun b data _ =>
  ⟨decode_word_b 0x05 (by decide) rfl data,
    exec_answered rfl (by simp only [tagLast_eq, toNat_bitWord, decide_eq_true_eq])⟩

/-- Settles O45: position 0 raises BAD_BN, and at the others the answer is TagValid's. -/
theorem tvalidAnswersPositionValidity : Obligations.TvalidAnswersPositionValidity := by
  intro b n data s
  refine ⟨decode_word_bnB 0x06 (by decide) rfl data, ?_⟩
  cases n with
  | zero => exact congrArg _ (raiseError_eq .badBn s)
  | first | second | third =>
    rw [exec_answered rfl (toNat_bitWord_tagValid b _), apply_ite (answered · s), apply_ite (answered · s)]
    rfl

/-- Settles O46: position 0 raises BAD_BN, and at the others the answer is the field of the byte. -/
theorem tnumfAnswersTheNumberBits : Obligations.TnumfAnswersTheNumberBits := by
  intro b n data s
  refine ⟨decode_word_bnB 0x07 (by decide) rfl data, ?_⟩
  cases n with
  | zero => exact congrArg _ (raiseError_eq .badBn s)
  | first | second | third => exact exec_answered rfl (toNat_tagNumberField b _)

end Sys2Proof.Machine
end

section
/-! Proofs for 42_length_inspector.md: each command of family L decodes from its word whatever DATA is and answers the
word its rule computes from B (rules R71 to R73), and a byte LVALID accepts has one meaning (rule R74). -/

namespace Sys2Proof.Machine

/-! ### The answers -/

theorem toNat_bitWord_lenValid (b : Byte) :
    (bitWord (lenValid b)).toNat = if b.toNat ≠ 0x80 ∧ b.toNat ≤ 0x84 then 1 else 0 := by
  simp only [lenValid_eq, toNat_bitWord, decide_eq_true_eq]

theorem toNat_bitWord_lenMultiByte (b : Byte) : (bitWord (lenMultiByte b)).toNat = b.toNat / 128 := by
  have := b.isLt
  simp only [lenMultiByte_eq, toNat_bitWord, decide_eq_true_eq]
  split <;> omega

theorem toNat_lenField (b : Byte) : ((lenField b).setWidth 32).toNat = b.toNat % 128 := by
  simp only [lenField, BitVec.toNat_setWidth, BitVec.extractLsb'_toNat, Nat.shiftRight_zero]
  omega

/-! ### The obligations on one command -/

/-- Settles O47: the answer is `bit` of LenValid (rule R9). -/
theorem lvalidAnswersLengthByteValidity : Obligations.LvalidAnswersLengthByteValidity := fun b data _ =>
  ⟨decode_word_b 0x11 (by decide) rfl data, exec_answered rfl (toNat_bitWord_lenValid b)⟩

/-- Settles O48: bit 7 is the quotient of the byte by 128. -/
theorem lmultiAnswersBitSeven : Obligations.LmultiAnswersBitSeven := fun b data _ =>
  ⟨decode_word_b 0x12 (by decide) rfl data, exec_answered rfl (toNat_bitWord_lenMultiByte b)⟩

/-- Settles O49: the low seven bits are the remainder of the byte by 128. -/
theorem lgetlenAnswersLowSevenBits : Obligations.LgetlenAnswersLowSevenBits := fun b data _ =>
  ⟨decode_word_b 0x13 (by decide) rfl data, exec_answered rfl (toNat_lenField b)⟩

/-! ### The meaning of a valid byte -/

/-- Answers that are equal respond with the same word. -/
theorem word_eq_of_answered_eq {m n : Nat} {s : State} (h : answered m s = answered n s) :
    BitVec.ofNat 32 m = BitVec.ofNat 32 n := by
  injection congrArg State.resp h with hresp
  exact congrArg Response.rsp hresp

/-- LVALID accepts only valid bytes (rule R71). -/
theorem valid_of_lvalid_accepts {b : Byte} {s : State} (h : exec (.lvalid b) s = .next (answered 1 s)) :
    b.toNat ≠ 0x80 ∧ b.toNat ≤ 0x84 := by
  rw [(lvalidAnswersLengthByteValidity b 0 s).2] at h
  injection h with hanswer
  split at hanswer
  next hvalid => exact hvalid
  next => exact absurd (word_eq_of_answered_eq hanswer) (by decide)

/-- Settles O50: bit 7 decides between the two forms, and the bound 0x84 leaves a long form the counts 1 to 4. -/
theorem validLengthByteHasOneMeaning : Obligations.ValidLengthByteHasOneMeaning := by
  intro b s haccepts
  obtain ⟨hne, hle⟩ := valid_of_lvalid_accepts haccepts
  obtain ⟨-, hmulti⟩ := lmultiAnswersBitSeven b 0 s
  obtain ⟨-, hgetlen⟩ := lgetlenAnswersLowSevenBits b 0 s
  obtain hshort | hlong := Nat.lt_or_ge b.toNat 128
  · rw [Nat.div_eq_of_lt hshort] at hmulti
    rw [Nat.mod_eq_of_lt hshort] at hgetlen
    exact .inl ⟨hmulti, hgetlen, by omega⟩
  · rw [show b.toNat / 128 = 1 by omega] at hmulti
    exact .inr ⟨hmulti, b.toNat % 128, by omega, by omega, by omega, hgetlen⟩

end Sys2Proof.Machine
end

section
/-! Proofs for 43_field_parser.md, TPARSE: each read is the next byte of the range's list, so TPARSE in every state is
what the list says (rules R77 to R82), and from it the tag assembled (rule R80) and the bytes skipped (rule R81). -/

namespace Sys2Proof.Machine

/-! ### Reads and the list of bytes -/

/-- A read with a byte still to come gives that byte. -/
theorem nextByte_of_drop {s : State} {n : Nat} {b : Byte} {bs : List Byte} (h : (rangeBytes s).drop n = b :: bs) :
    nextByte (s.advance n) = .byte b (s.advance (n + 1)) := by
  have hlt : n < (rangeBytes s).length := List.length_lt_of_drop_ne_nil (by rw [h]; nofun)
  have hle := length_rangeBytes_le s
  rw [drop_rangeBytes hlt] at h
  injection h with hb
  rw [nextByte_advance (by omega), if_neg (by omega), if_neg (by omega), hb]

/-- A read past the last byte raises ACCESS where IN ends before END, and else finds the range exhausted. -/
theorem nextByte_at_end (s : State) :
    nextByte (s.advance (rangeBytes s).length) =
      if (rangeBytes s).length < s.rangeLen then .access else .exhausted := by
  have hle := length_rangeBytes_le s
  rw [nextByte_advance hle, if_pos (Nat.le_refl (rangeBytes s).length)]
  split
  · rw [if_neg (by omega)]
  · rw [if_pos (by omega)]

/-- ACCESS past the last byte (rules R77, R97). -/
theorem raiseAccess_at_end (s : State) : raiseAccess s (s.advance (rangeBytes s).length) = accessState s :=
  raiseError_eq ..

/-- Consuming the whole range leaves CUR at END, or where it was if it was above END (rules R82, R85). -/
theorem cur_add_rangeLen (s : State) : s.cur + BitVec.ofNat 32 s.rangeLen = exhaustedCur s := by
  have hend := s.endr.isLt
  apply BitVec.eq_of_toNat_eq
  rw [toNat_advance (Nat.le_refl _)]
  unfold exhaustedCur State.rangeLen
  simp only [BitVec.le_def]
  split <;> omega

theorem length_rangeBytes_inside {s : State} (h : EndInsideIn s) : (rangeBytes s).length = s.rangeLen := by
  unfold EndInsideIn at h
  rw [length_rangeBytes, Nat.min_eq_left h, State.rangeLen]

/-- What `n` reads leave of CUR and the counter where IN is plain memory. -/
theorem reads_plain {s : State} (h : PlainRange s) {n : Nat} (hn : n ≤ s.rangeLen) :
    s.cur + BitVec.ofNat 32 n = BitVec.ofNat 32 (s.cur.toNat + n) ∧ s.draws + erraticReads s n = s.draws := by
  rw [erraticReads_plain h hn]
  exact ⟨word_eq_ofNat (toNat_advance hn), rfl⟩

/-! ### The two ways TPARSE ends -/

/-- What TPARSE leaves when the bytes end before the tag field does: ACCESS (rule R77), or the range exhausted (rule
R82). -/
def tagUnfinished (s : State) (skipped : Bool) : State :=
  if (rangeBytes s).length < s.rangeLen then accessState s
  else
    { s with
      cur := exhaustedCur s
      tag := 0
      st := tagStatus s.st false true false skipped
      resp := some { rsp := 0, rerr := false }
      draws := s.draws + erraticReads s (rangeBytes s).length }

/-- What TPARSE leaves when it takes the tag field `tb` after `skip` bytes (rule R80). -/
def tagTaken (s : State) (skip : Nat) (tb : List Byte) : State :=
  { s with
    cur := s.cur + BitVec.ofNat 32 (skip + tb.length)
    tag := BitVec.ofNat 32 (tb.length * 2 ^ 24 + bigEndian tb)
    st := tagStatus s.st true false ((tb.headD 0).toNat / 32 % 2 == 1) (decide (0 < skip))
    resp := some { rsp := BitVec.ofNat 32 (tb.length * 2 ^ 24 + bigEndian tb), rerr := false }
    draws := s.draws + erraticReads s (skip + tb.length) }

/-- The bytes of the range skipped before the tag field (rule R81). -/
def skippedBytes (s : State) : List Byte := (rangeBytes s).takeWhile (· == 0)

/-- The claim's state is one of the two ends, by the tag field. -/
theorem tparseOfRange_eq (s : State) :
    tparseOfRange s = (tagField ((rangeBytes s).dropWhile (· == 0))).elim
      (tagUnfinished s (decide (0 < (skippedBytes s).length))) (tagTaken s (skippedBytes s).length) := by
  unfold tparseOfRange
  cases h : tagField ((rangeBytes s).dropWhile (· == 0)) <;> simp only [h] <;> rfl

theorem tagUnfinished_eq (s : State) (skipped : Bool) :
    tagUnfinished s skipped =
      if (rangeBytes s).length < s.rangeLen then raiseAccess s (s.advance (rangeBytes s).length)
      else tagExhausted skipped (s.advance (rangeBytes s).length) := by
  unfold tagUnfinished
  split
  · rw [raiseAccess_at_end]
  · have hlen : (rangeBytes s).length = s.rangeLen := by have := length_rangeBytes_le s; omega
    rw [tagExhausted, withTagFlags_eq, ← cur_add_rangeLen, hlen]
    rfl

theorem tagUnfinished_inside {s : State} (h : EndInsideIn s) (skipped : Bool) :
    tagUnfinished s skipped = tagExhausted skipped (s.advance (rangeBytes s).length) := by
  rw [tagUnfinished_eq, length_rangeBytes_inside h, if_neg (Nat.lt_irrefl _)]

theorem tagDone_eq_tagTaken {s : State} {skip : Nat} {tb : List Byte} {k : BitVec 2} {bytes : BitVec 24}
    (htag : (packTag k bytes).toNat = tb.length * 2 ^ 24 + bigEndian tb) :
    tagDone k bytes (tb.headD 0) (decide (0 < skip)) (s.advance (skip + tb.length)) = tagTaken s skip tb := by
  rw [tagDone, withTagFlags_eq, tagConstructed_eq, word_eq_ofNat htag]
  rfl

/-! ### TPARSE over the list -/

section Bytes
variable {s : State} {skip : Nat} {b1 b2 : Byte} {bs : List Byte}

/-- Past a byte of the list the rest of it is still to come. -/
theorem drop_succ_of_drop {n : Nat} (h : (rangeBytes s).drop n = b1 :: bs) : (rangeBytes s).drop (n + 1) = bs := by
  rw [← List.tail_drop, h, List.tail_cons]

theorem end_of_drop {n : Nat} (h : (rangeBytes s).drop n = [b1]) : n + 1 = (rangeBytes s).length := by
  have hlen := congrArg List.length h
  rw [List.length_drop, List.length_singleton] at hlen
  omega

theorem thirdTagByte_of_drop (h : (rangeBytes s).drop skip = b1 :: b2 :: bs) (h1 : b1.toNat % 32 = 31)
    (h2 : ¬ b2.toNat < 128) :
    thirdTagByte s b1 b2 (decide (0 < skip)) (s.advance (skip + 2)) =
      (tagField (b1 :: b2 :: bs)).elim (tagUnfinished s (decide (0 < skip))) (tagTaken s skip) := by
  have hsecond := drop_succ_of_drop h
  unfold thirdTagByte
  cases bs with
  | nil =>
    have hnone : tagField [b1, b2] = none := by simp [tagField, h1, h2]
    rw [hnone, Option.elim_none, end_of_drop hsecond, nextByte_at_end, tagUnfinished_eq]
    by_cases hin : (rangeBytes s).length < s.rangeLen <;> simp only [hin, if_true, if_false]
  | cons b3 bs =>
    have hsome : tagField (b1 :: b2 :: b3 :: bs) = some [b1, b2, b3] := by simp [tagField, h1, h2]
    rw [hsome, Option.elim_some, nextByte_of_drop (drop_succ_of_drop hsecond)]
    exact tagDone_eq_tagTaken (tb := [b1, b2, b3]) (by simp [toNat_packTag, toNat_tagBytes3, bigEndian])

theorem secondTagByte_of_drop (h : (rangeBytes s).drop skip = b1 :: bs) (h1 : b1.toNat % 32 = 31) :
    secondTagByte s b1 (decide (0 < skip)) (s.advance (skip + 1)) =
      (tagField (b1 :: bs)).elim (tagUnfinished s (decide (0 < skip))) (tagTaken s skip) := by
  unfold secondTagByte
  cases bs with
  | nil =>
    have hnone : tagField [b1] = none := by simp [tagField, h1]
    rw [hnone, Option.elim_none, end_of_drop h, nextByte_at_end, tagUnfinished_eq]
    by_cases hin : (rangeBytes s).length < s.rangeLen <;> simp only [hin, if_true, if_false]
  | cons b2 bs =>
    simp only [nextByte_of_drop (drop_succ_of_drop h), tagLast_eq, decide_eq_true_eq]
    split
    · next h2 =>
      have hsome : tagField (b1 :: b2 :: bs) = some [b1, b2] := by cases bs <;> simp [tagField, h1, h2]
      rw [hsome, Option.elim_some]
      exact tagDone_eq_tagTaken (tb := [b1, b2]) (by simp [toNat_packTag, toNat_tagBytes2, bigEndian])
    · next h2 => exact thirdTagByte_of_drop h h1 h2

end Bytes

/-- The bytes of the range after those skipped. -/
theorem drop_skippedBytes (s : State) :
    (rangeBytes s).drop (skippedBytes s).length = (rangeBytes s).dropWhile (· == 0) := by
  have happend : skippedBytes s ++ (rangeBytes s).dropWhile (· == 0) = rangeBytes s := List.takeWhile_append_dropWhile
  calc (rangeBytes s).drop (skippedBytes s).length
      _ = (skippedBytes s ++ (rangeBytes s).dropWhile (· == 0)).drop (skippedBytes s).length := by rw [happend]
      _ = (rangeBytes s).dropWhile (· == 0) := List.drop_left

theorem tagPhase_eq_tparseOfRange (s : State) : tagPhase s = tparseOfRange s := by
  have hfind := findFirst_advance (s := s) (fuel := s.rangeLen) (n := 0) false (Nat.zero_le _) (Nat.sub_le _ _)
  rw [State.advance_zero, List.drop_zero] at hfind
  have hdrop := drop_skippedBytes s
  rw [tparseOfRange_eq, tagPhase, hfind]
  cases hbytes : (rangeBytes s).dropWhile (· == 0) with
  | nil =>
    have hskip : skippedBytes s = rangeBytes s := by
      have happend := List.takeWhile_append_dropWhile (p := (· == (0 : Byte))) (l := rangeBytes s)
      rwa [hbytes, List.append_nil] at happend
    rw [show tagField [] = none from rfl, Option.elim_none, tagUnfinished_eq, hskip]
    by_cases hin : (rangeBytes s).length < s.rangeLen <;> simp only [hin, if_true, if_false, Bool.false_or]
  | cons b1 bs =>
    rw [hbytes] at hdrop
    simp only [Bool.false_or, Nat.zero_add, tagMultiByte_eq, decide_eq_true_eq]
    split
    · next h1 => exact secondTagByte_of_drop hdrop h1
    · next h1 =>
      have hsome : tagField (b1 :: bs) = some [b1] := by simp [tagField, h1]
      rw [hsome, Option.elim_some]
      exact tagDone_eq_tagTaken (tb := [b1]) (by simp [toNat_packTag, toNat_tagBytes1, bigEndian])

/-- Settles O2: the skip loop ends at the first byte that is not 0x00, and the reads after it are the tag field's. -/
theorem tparseFollowsTheBytesOfTheRange : Obligations.TparseFollowsTheBytesOfTheRange := fun data s =>
  ⟨decode_encode_of_not_wr (i := .tparse) (by decide) data, congrArg _ (tagPhase_eq_tparseOfRange s)⟩

theorem exec_tparse_eq (s : State) : exec .tparse s = .next (tparseOfRange s) :=
  (tparseFollowsTheBytesOfTheRange 0 s).2

/-! ### The tag assembled (rule R80) -/

/-- The first byte of a tag field. -/
theorem tagField_head {bs tb : List Byte} (h : tagField bs = some tb) : ∃ b1 r r', bs = b1 :: r ∧ tb = b1 :: r' := by
  rcases tagField_cases h with ⟨b1, _, hbs, htb, _⟩ | ⟨b1, _, _, hbs, htb, _⟩ | ⟨b1, _, _, _, hbs, htb, _⟩ <;>
    exact ⟨b1, _, _, hbs, htb⟩

/-- A range that begins with `skip` bytes 0x00 and a whole tag field. -/
theorem tparseOfRange_of_append {s : State} {skip : Nat} {tb rest : List Byte}
    (hbytes : rangeBytes s = List.replicate skip 0 ++ (tb ++ rest)) (hne : tb.headD 0 ≠ 0)
    (hfield : tagField tb = some tb) : tparseOfRange s = tagTaken s skip tb := by
  obtain ⟨b1, -, r, -, rfl⟩ := tagField_head hfield
  have hb1 : b1 ≠ 0 := hne
  rw [tparseOfRange_eq, skippedBytes, hbytes, List.cons_append, takeWhile_replicate hb1, dropWhile_replicate hb1,
    ← List.cons_append, tagField_append hfield, Option.elim_some, List.length_replicate]

/-- The bytes from the `k`-th on begin with any `n` of them that lie in the range. -/
theorem drop_rangeBytes_plain {s : State} (h : PlainRange s) {k n : Nat} (hn : k + n ≤ (rangeBytes s).length) :
    (rangeBytes s).drop k =
      (List.range n).map (fun i => s.mem.byteAt (s.cur.toNat + k + i)) ++ (rangeBytes s).drop (k + n) := by
  rw [← take_drop_rangeBytes_plain h hn, ← List.drop_drop, List.take_append_drop]

/-- What a tag leaves where IN is plain memory: no free byte is drawn. -/
theorem tagTaken_plain {s : State} (h : PlainRange s) {skip : Nat} {tb : List Byte}
    (hn : skip + tb.length ≤ s.rangeLen) :
    tagTaken s skip tb =
      { tagTaken s skip tb with cur := BitVec.ofNat 32 (s.cur.toNat + skip + tb.length), draws := s.draws } := by
  obtain ⟨hcur, hdraws⟩ := reads_plain h hn
  simp only [tagTaken, hcur, hdraws, Nat.add_assoc]

/-- Settles O15: the range is the bytes skipped, the tag field, and a rest that does not change it. -/
theorem tparseAssemblesTheTag : Obligations.TparseAssemblesTheTag := by
  intro s skip tb hplain hzero hfirst hend hin htb hfield tag
  have hlen : skip + tb.length ≤ (rangeBytes s).length := by rw [length_rangeBytes]; omega
  have hrange := length_rangeBytes_le s
  have hskip : (List.range skip).map (fun i => s.mem.byteAt (s.cur.toNat + 0 + i)) = List.replicate skip 0 := by
    refine List.eq_replicate_iff.mpr ⟨by simp, fun b hb => ?_⟩
    obtain ⟨j, hj, rfl⟩ := List.mem_map.mp hb
    exact hzero j (List.mem_range.mp hj)
  have hbytes : rangeBytes s = List.replicate skip 0 ++ (tb ++ (rangeBytes s).drop (skip + tb.length)) := by
    have hzeros := drop_rangeBytes_plain hplain (k := 0) (n := skip) (by omega)
    have htag := drop_rangeBytes_plain hplain hlen
    rwa [List.drop_zero, hskip, Nat.zero_add, htag, ← htb] at hzeros
  have hhead : tb.headD 0 ≠ 0 := by
    obtain ⟨b1, -, r, -, rfl⟩ := tagField_head hfield
    rw [List.length_cons, List.range_succ_eq_map, List.map_cons] at htb
    injection htb with hb1
    rw [List.headD_cons, hb1]
    exact hfirst
  calc exec .tparse s
      _ = .next (tparseOfRange s) := exec_tparse_eq s
      _ = .next (tagTaken s skip tb) := by rw [tparseOfRange_of_append hbytes hhead hfield]
      _ = _ := by rw [tagTaken_plain hplain (by omega)]; rfl

/-! ### The bytes skipped (rule R81) -/

/-- A tag field is no longer than the list it stands in. -/
theorem tagField_length_le {bs tb : List Byte} (h : tagField bs = some tb) : tb.length ≤ bs.length := by
  rcases tagField_cases h with ⟨_, _, rfl, rfl, _⟩ | ⟨_, _, _, rfl, rfl, _⟩ | ⟨_, _, _, _, rfl, rfl, _⟩ <;> simp

/-- TAGLEN of the tag taken (rule R19). -/
theorem taglen_tagTaken (s : State) (skip : Nat) {tb : List Byte} (h3 : tb.length ≤ 3) :
    (tagTaken s skip tb).tag.toNat / 2 ^ 24 = tb.length := by
  have hlt := bigEndian_lt_tbytes h3
  rw [tagTaken, BitVec.toNat_ofNat]
  omega

theorem rangeByte_of_lt_skipped {s : State} {j : Nat} (hj : j < (skippedBytes s).length) : rangeByte s j = 0 := by
  have hprefix : skippedBytes s <+: rangeBytes s := List.takeWhile_prefix _
  have hzero := List.all_eq_true.mp List.all_takeWhile _ (List.getElem_mem hj)
  rw [hprefix.getElem hj, getElem_rangeBytes] at hzero
  exact eq_of_beq hzero

theorem rangeByte_skipped_ne_zero {s : State} (h : (skippedBytes s).length < (rangeBytes s).length) :
    rangeByte s (skippedBytes s).length ≠ 0 := by
  have hdrop := (drop_skippedBytes s).symm.trans (drop_rangeBytes h)
  have hhead := List.head_dropWhile_not (p := (· == (0 : Byte))) (l := rangeBytes s) (by rw [hdrop]; nofun)
  simp only [hdrop, List.head_cons] at hhead
  exact ne_of_beq_false hhead

/-- Only a tag field taken sets TOK (rule R24). -/
theorem tparseOfRange_tok {s : State} (herr : NoCommandError (tparseOfRange s))
    (htok : St.tok (tparseOfRange s).st = true) :
    ∃ tb, tagField ((rangeBytes s).dropWhile (· == 0)) = some tb ∧
      tparseOfRange s = tagTaken s (skippedBytes s).length tb := by
  rw [tparseOfRange_eq] at herr htok ⊢
  cases hfield : tagField ((rangeBytes s).dropWhile (· == 0)) with
  | some tb => exact ⟨tb, rfl, rfl⟩
  | none =>
    rw [hfield, Option.elim_none, tagUnfinished_eq] at herr htok
    split at herr
    · exact absurd herr (not_noCommandError_raiseAccess _ _)
    · next hin =>
      rw [if_neg hin, tagExhausted, withTagFlags_eq] at htok
      simp at htok

/-- Settles O24: CUR moved by the bytes skipped and the tag field's, and TAGLEN counts the latter. -/
theorem skippedBytesAreCountedByTheCursor : Obligations.SkippedBytesAreCountedByTheCursor := by
  intro s t h herr htok k
  cases (exec_tparse_eq s).symm.trans h
  obtain ⟨tb, hfield, heq⟩ := tparseOfRange_tok herr htok
  obtain ⟨h1, h3⟩ := tagField_length hfield
  have htb := tagField_length_le hfield
  have hrange := length_rangeBytes_le s
  rw [← drop_skippedBytes, List.length_drop] at htb
  have hcur : (tparseOfRange s).cur.toNat = s.cur.toNat + ((skippedBytes s).length + tb.length) := by
    rw [heq]
    exact toNat_advance (by omega)
  have hk : k = (skippedBytes s).length := by
    have hlen : (tparseOfRange s).tag.toNat / 2 ^ 24 = tb.length := by rw [heq, taglen_tagTaken s _ h3]
    simp only [k, hcur, hlen]
    omega
  rw [hk]
  refine ⟨fun j hj => rangeByte_of_lt_skipped hj, rangeByte_skipped_ne_zero (by omega), ?_⟩
  rw [heq]
  simp [tagTaken]

end Sys2Proof.Machine
end

section
/-! Proofs for 43_field_parser.md, LPARSE: in every state it is what the range's list of bytes says (rules R83 to R86),
and from it the three ways it ends (rule R85); then, for both parse commands, when ACCESS is raised and what it leaves
(rules R77, R87). -/

namespace Sys2Proof.Machine

/-! ### The ways LPARSE ends -/

/-- What LPARSE leaves when the length field at the head of the range's bytes ends like this (rules R77, R85). -/
def lengthRead (s : State) : LenField → State
  | .value v long used =>
    { s with
      cur := s.cur + BitVec.ofNat 32 used
      len := BitVec.ofNat 32 v
      st := lenStatus s.st true false false long
      resp := some { rsp := BitVec.ofNat 32 v, rerr := false }
      draws := s.draws + erraticReads s used }
  | .invalid =>
    { s with
      cur := s.cur + BitVec.ofNat 32 1
      len := 0
      st := lenStatus s.st false true false false
      resp := some { rsp := 0, rerr := false }
      draws := s.draws + erraticReads s 1 }
  | .unfinished long =>
    if (rangeBytes s).length < s.rangeLen then accessState s
    else
      { s with
        cur := exhaustedCur s
        len := 0
        st := lenStatus s.st false false true long
        resp := some { rsp := 0, rerr := false }
        draws := s.draws + erraticReads s (rangeBytes s).length }

theorem lparseOfRange_eq (s : State) : lparseOfRange s = lengthRead s (lengthField (rangeBytes s)) := by
  unfold lparseOfRange
  cases h : lengthField (rangeBytes s) <;> simp only [h] <;> rfl

theorem lenDone_eq_lengthRead (s : State) (v : Nat) (long : Bool) (used : Nat) :
    lenDone (BitVec.ofNat 32 v) long (s.advance used) = lengthRead s (.value v long used) := by
  rw [lenDone, withLenFlags_eq]
  rfl

theorem lenInvalid_eq_lengthRead (s : State) : lenInvalid (s.advance 1) = lengthRead s .invalid := by
  rw [lenInvalid, withLenFlags_eq]
  rfl

theorem lengthRead_unfinished (s : State) (long : Bool) :
    lengthRead s (.unfinished long) =
      if (rangeBytes s).length < s.rangeLen then raiseAccess s (s.advance (rangeBytes s).length)
      else lenExhausted long (s.advance (rangeBytes s).length) := by
  simp only [lengthRead]
  split
  · rw [raiseAccess_at_end]
  · have hlen : (rangeBytes s).length = s.rangeLen := by have := length_rangeBytes_le s; omega
    rw [lenExhausted, withLenFlags_eq, ← cur_add_rangeLen, hlen]
    rfl

theorem lengthRead_unfinished_inside {s : State} (h : EndInsideIn s) (long : Bool) :
    lengthRead s (.unfinished long) = lenExhausted long (s.advance (rangeBytes s).length) := by
  rw [lengthRead_unfinished, length_rangeBytes_inside h, if_neg (Nat.lt_irrefl _)]

/-! ### LPARSE over the list -/

/-- The three kinds of first byte of a length field (rules R71, R72, R83): short form, invalid, and the marker of a long
form of 1 to 4 bytes. -/
theorem lengthByte_cases (b : Byte) :
    b.toNat < 0x80 ∧ lenValid b = true ∧ lenMultiByte b = false ∨
      (b.toNat = 0x80 ∨ 0x84 < b.toNat) ∧ lenValid b = false ∨
      ∃ n, 1 ≤ n ∧ n ≤ 4 ∧ b.toNat = 0x80 + n := by
  simp only [lenValid_eq, lenMultiByte_eq, decide_eq_true_eq, decide_eq_false_iff_not]
  by_cases hshort : b.toNat < 0x80
  · exact .inl ⟨hshort, by omega, by omega⟩
  · by_cases hinvalid : b.toNat = 0x80 ∨ 0x84 < b.toNat
    · exact .inr (.inl ⟨hinvalid, by omega⟩)
    · exact .inr (.inr ⟨b.toNat - 0x80, by omega, by omega, by omega⟩)

/-- The value bytes of a long form after its marker (rules R83, R84). -/
theorem longLength_of_marker {s : State} {l0 : Byte} {bs : List Byte} {n : Nat} (h1 : 1 ≤ n) (h4 : n ≤ 4)
    (hbytes : rangeBytes s = l0 :: bs) (hmarker : l0.toNat = 0x80 + n) :
    longLength s n 0 (s.advance 1) = lengthRead s (lengthField (rangeBytes s)) := by
  have hdrop : (rangeBytes s).drop 1 = bs := by rw [hbytes, List.drop_one, List.tail_cons]
  have hlen : (rangeBytes s).length = bs.length + 1 := by rw [hbytes, List.length_cons]
  have hlong := longLength_advance (s := s) (n := n) (k := 1) 0 (by omega)
  rw [hdrop, foldl_accByte, lenDone_eq_lengthRead, ← lengthRead_unfinished] at hlong
  have hcount : l0.toNat - 0x80 = n := by omega
  have hshort : ¬ l0.toNat < 0x80 := by omega
  have hvalid : ¬ (l0.toNat = 0x80 ∨ 0x84 < l0.toNat) := by omega
  rw [hlong, hbytes, lengthField, if_neg hshort, if_neg hvalid, hcount, ← hbytes]
  by_cases hin : bs.length < n
  · rw [if_pos hin, if_neg (by omega)]
  · rw [if_neg hin, if_pos (by omega), Nat.add_comm 1 n]

theorem lengthPhase_eq_lparseOfRange (s : State) : lengthPhase s = lparseOfRange s := by
  rw [lparseOfRange_eq, lengthPhase]
  cases hbytes : rangeBytes s with
  | nil =>
    have hend := nextByte_at_end s
    have hread := lengthRead_unfinished s false
    rw [hbytes, List.length_nil, State.advance_zero] at hend hread
    rw [hend, show lengthField [] = .unfinished false from rfl, hread]
    by_cases hin : 0 < s.rangeLen <;> simp only [hin, if_true, if_false]
  | cons l0 bs =>
    have hfirst : nextByte s = .byte l0 (s.advance 1) := by
      simpa using nextByte_of_drop (s := s) (n := 0) (by rw [hbytes, List.drop_zero])
    obtain ⟨hshort, hvalid, hmulti⟩ | ⟨hbad, hvalid⟩ | ⟨n, h1, h4, hmarker⟩ := lengthByte_cases l0
    · have hfield : lengthField (l0 :: bs) = .value l0.toNat false 1 := by simp [lengthField, hshort]
      have hzext : zextByte l0 = BitVec.ofNat 32 l0.toNat := (BitVec.ofNat_toNat ..).symm
      simp only [hfirst, hvalid, hmulti, Bool.not_true, Bool.false_eq_true, if_false]
      rw [hfield, hzext, lenDone_eq_lengthRead]
    · have hfield : lengthField (l0 :: bs) = .invalid := by
        rw [lengthField, if_neg (by omega), if_pos hbad]
      simp only [hfirst, hvalid, Bool.not_false, if_true]
      rw [hfield, lenInvalid_eq_lengthRead]
    · obtain ⟨hvalid, hmulti, hcount⟩ := marker_classified h1 h4 hmarker
      simp only [hfirst, hvalid, hmulti, hcount, Bool.not_true, Bool.false_eq_true, if_false, if_true]
      rw [longLength_of_marker h1 h4 hbytes hmarker, hbytes]

/-- Settles O3: the first byte decides the form, and the reads after a marker are the value's bytes. -/
theorem lparseFollowsTheBytesOfTheRange : Obligations.LparseFollowsTheBytesOfTheRange := fun data s =>
  ⟨decode_encode_of_not_wr (i := .lparse) (by decide) data, congrArg _ (lengthPhase_eq_lparseOfRange s)⟩

theorem exec_lparse_eq (s : State) : exec .lparse s = .next (lparseOfRange s) :=
  (lparseFollowsTheBytesOfTheRange 0 s).2

/-! ### The three ways (rule R85) -/

theorem ne_nil_of_lengthField_invalid {bs : List Byte} (h : lengthField bs = .invalid) : bs ≠ [] := by
  rintro rfl
  cases h

/-- Settles O16: where IN is plain memory no free byte is drawn, and with END at most INSIZE there is no ACCESS. -/
theorem lparseEndsInOneOfThreeWays : Obligations.LparseEndsInOneOfThreeWays := by
  intro s hplain hend
  have hlen := length_rangeBytes_inside hend
  have hbytes := (rangeBytes_plain hplain hend).symm
  rw [bytesBetween] at hbytes
  rw [exec_lparse_eq, lparseOfRange_eq, hbytes]
  cases hfield : lengthField (rangeBytes s) with
  | value v long used =>
    obtain ⟨-, hused, -⟩ := lengthField_used_le hfield
    obtain ⟨hcur, hdraws⟩ := reads_plain hplain (hlen ▸ hused)
    simp only [lengthRead, hcur, hdraws]
  | invalid =>
    have hpos := List.length_pos_iff.mpr (ne_nil_of_lengthField_invalid hfield)
    obtain ⟨hcur, hdraws⟩ := reads_plain hplain (n := 1) (hlen ▸ hpos)
    simp only [lengthRead, hcur, hdraws]
  | unfinished long =>
    obtain ⟨-, hdraws⟩ := reads_plain hplain (Nat.le_of_eq hlen)
    simp only [lengthRead, hlen, Nat.lt_irrefl, if_false] at hdraws ⊢
    rw [hdraws]

/-! ### ACCESS (rules R77, R87) -/

theorem noCommandError_of_resp {s : State} {v : Word} (h : s.resp = some { rsp := v, rerr := false }) :
    NoCommandError s := by
  intro r hr
  cases h.symm.trans hr
  rfl

theorem not_erred_respond (v : Word) (s : State) : ¬ Erred (respond v s) := by
  rintro ⟨r, hr, herr⟩
  cases hr
  cases herr

/-- Settles O19: of the states a parse command can end in only the one after ACCESS has an error, and it is the state
before with the error record. -/
theorem accessErrorRestoresTheState : Obligations.AccessErrorRestoresTheState := by
  rintro i s t (rfl | rfl) h herr
  · cases exec_tparse_end h with
    | access n => exact raiseError_eq ..
    | exhausted | assembled => exact absurd herr (not_erred_respond _ _)
  · cases exec_lparse_end h with
    | access n => exact raiseError_eq ..
    | exhausted | invalid | valid => exact absurd herr (not_erred_respond _ _)

theorem tparseOfRange_noCommandError {s : State} (h : EndInsideIn s) : NoCommandError (tparseOfRange s) := by
  rw [tparseOfRange_eq]
  cases tagField ((rangeBytes s).dropWhile (· == 0)) with
  | none =>
    rw [Option.elim_none, tagUnfinished_inside h]
    exact noCommandError_of_resp rfl
  | some tb => exact noCommandError_of_resp rfl

theorem lparseOfRange_noCommandError {s : State} (h : EndInsideIn s) : NoCommandError (lparseOfRange s) := by
  rw [lparseOfRange_eq]
  cases lengthField (rangeBytes s) with
  | unfinished long =>
    rw [lengthRead_unfinished_inside h]
    exact noCommandError_of_resp rfl
  | value v long used => exact noCommandError_of_resp rfl
  | invalid => exact noCommandError_of_resp rfl

/-- Settles O20: with END at most INSIZE every byte of the range lies inside IN, so no read raises ACCESS. -/
theorem payloadContentRaisesNoError : Obligations.PayloadContentRaisesNoError := by
  rintro i s (rfl | rfl) hend
  · exact ⟨_, exec_tparse_eq s, tparseOfRange_noCommandError hend⟩
  · exact ⟨_, exec_lparse_eq s, lparseOfRange_noCommandError hend⟩

end Sys2Proof.Machine
end

section
/-! Proofs for 43_field_parser.md, the host's decode: each command the host procedure of rule R121 issues over a range
inside IN answers without an error and leaves the error record and IN (rule R87). -/

namespace Sys2Proof.Machine

/-! ### The commands the host issues -/

theorem issue_of_exec {i : Instr} {s t : State} (h : exec i s = .next t) : issue i s = t := by
  unfold issue
  rw [acceptCommand_ok (decodeOfEncodeIsTheCommand i), h]

theorem issue_wr_cur_eq (v : Word) (s : State) : issue (.wr .cur v) s = respond 0 (s.setCur v) := issue_of_exec rfl

theorem issue_wr_endr_eq (v : Word) (s : State) : issue (.wr .endr v) s = respond 0 (s.setEnd v) := issue_of_exec rfl

/-- The host's decode has come from `s0` to `s` without an error: ERR, ECODE and IN are as they were, the latest
response has `rerr = 0`, and END is inside IN. -/
structure QuietSince (s0 s : State) : Prop where
  record : s.st &&& 0x0000F100#32 = s0.st &&& 0x0000F100#32
  noError : NoCommandError s
  mem : s.mem = s0.mem
  endInside : EndInsideIn s

/-- Words that are the same under a mask are the same under a smaller one. -/
theorem and_submask_congr {v w mask sub : Word} (hsub : mask &&& sub = sub) (h : v &&& mask = w &&& mask) :
    v &&& sub = w &&& sub := by
  rw [← hsub, ← BitVec.and_assoc, ← BitVec.and_assoc, h]

/-- Writing END inside IN is quiet whatever the response before it was. -/
theorem wrEnd_quiet {s0 s : State} {e : Nat} (hrecord : s.st &&& 0x0000F100#32 = s0.st &&& 0x0000F100#32)
    (hmem : s.mem = s0.mem) (he : e ≤ s0.mem.size) :
    QuietSince s0 (issue (.wr .endr (BitVec.ofNat 32 e)) s) := by
  rw [issue_wr_endr_eq]
  refine ⟨hrecord, noCommandError_of_resp rfl, hmem, ?_⟩
  unfold EndInsideIn
  rw [respond_endr, State.setEnd_endr, respond_mem, State.setEnd_mem, hmem, BitVec.toNat_ofNat]
  exact Nat.le_trans (Nat.mod_le e _) he

section Quiet
variable {s0 s : State} (h : QuietSince s0 s)
include h

/-- A parse command over a range inside IN (rules R23, R87). -/
theorem QuietSince.issue_parse {i : Instr} (hi : isParse i) : QuietSince s0 (issue i s) := by
  obtain ⟨hrecord, -, hmem, hend⟩ := h
  obtain ⟨t, ht, hquiet⟩ := payloadContentRaisesNoError i s hi hend
  rw [issue_of_exec ht]
  obtain ⟨hst, hendr, htmem⟩ : t.st &&& 0x0000F100#32 = s.st &&& 0x0000F100#32 ∧ t.endr = s.endr ∧ t.mem = s.mem := by
    obtain rfl | rfl := hi
    · obtain ⟨hst, -, hframe⟩ := (parseWritesOnlyItsOwnFields s t).1 ht hquiet
      exact ⟨and_submask_congr (by decide) hst, hframe⟩
    · obtain ⟨hst, -, hframe⟩ := (parseWritesOnlyItsOwnFields s t).2 ht hquiet
      exact ⟨and_submask_congr (by decide) hst, hframe⟩
  exact ⟨hst.trans hrecord, hquiet, htmem.trans hmem, by rwa [EndInsideIn, hendr, htmem]⟩

theorem QuietSince.issue_tparse : QuietSince s0 (issue .tparse s) := h.issue_parse (.inl rfl)

theorem QuietSince.issue_lparse : QuietSince s0 (issue .lparse s) := h.issue_parse (.inr rfl)

theorem QuietSince.issue_wrCur (v : Word) : QuietSince s0 (issue (.wr .cur v) s) := by
  rw [issue_wr_cur_eq]
  exact ⟨h.record, noCommandError_of_resp rfl, h.mem, h.endInside⟩

theorem QuietSince.issue_wrEnd {e : Nat} (he : e ≤ s0.mem.size) :
    QuietSince s0 (issue (.wr .endr (BitVec.ofNat 32 e)) s) := wrEnd_quiet h.record h.mem he

end Quiet

/-! ### The host's procedure (rule R121) -/

/-- A level and the levels inside it issue such commands only: the level of a constructed element ends no later. -/
theorem parseLoop_quiet {s0 : State} : ∀ (fuel : Nat) {e : Nat} (tree : Tree) {s : State},
    QuietSince s0 s → e ≤ s0.mem.size → QuietSince s0 (parseLoop fuel e tree s).2
  | 0, _, _, _, h, _ => h
  | fuel + 1, e, tree, s, h, he => by
    have h1 := h.issue_tparse
    have h2 := h1.issue_lparse
    simp only [parseLoop]
    split
    · exact h1
    split
    · exact h2
    split
    · exact h2
    next hleft =>
    split
    · refine parseLoop_quiet fuel _ ((QuietSince.issue_wrEnd ?_ he).issue_wrCur _) he
      refine parseLoop_quiet fuel _ ((h2.issue_wrCur _).issue_wrEnd ?_) ?_ <;> omega
    · exact parseLoop_quiet fuel _ (h2.issue_wrCur _) he

/-- Settles O5: the two writes of rule R121 put END inside IN, and the loop keeps it there. -/
theorem hostDecodeRaisesNoError : Obligations.HostDecodeRaisesNoError := by
  intro a e s _ _ hsize
  have hstart : QuietSince s
      (issue (.wr .endr (BitVec.ofNat 32 e)) (issue (.wr .cur (BitVec.ofNat 32 a)) s)) := by
    rw [issue_wr_cur_eq]
    exact wrEnd_quiet rfl rfl hsize
  obtain ⟨hrecord, hquiet, hmem, -⟩ := parseLoop_quiet (e - a + 1) .empty hstart hsize
  exact ⟨hrecord, hquiet, hmem⟩

end Sys2Proof.Machine
end

section
/-! Proofs for 44_register_access.md: RD and WR decode from the word of their selector, and each selector has the
register or the error that rules R89 and R90 give it; CLRERR clears the error record alone (rule R92). -/

namespace Sys2Proof.Machine

/-! ### The word of a selector -/

/-- With 5 last, a match on the number of an undefined selector reaches its last case by evaluation. -/
theorem selectorNumber_undefined (k : Fin 11) : selectorNumber (.undefined k) = k.val + 5 := Nat.add_comm 5 k.val

theorem toNat_toBits_eq_selectorNumber (r : RegSel) : r.toBits.toNat = selectorNumber r := by
  cases r with
  | undefined k =>
    have := k.isLt
    simp only [selectorNumber_undefined, RegSel.toBits, BitVec.toNat_ofNat]
    omega
  | cur | endr | tag | len | st => rfl

/-- The word of a command over RS alone, as the sum of its fields at their places (rules R48, R51). -/
theorem cmdWord_toBits (op : Byte) (r : RegSel) :
    cmdWord op r.toBits 0#2 0#8 = BitVec.ofNat 32 (op.toNat * 2 ^ 24 + 2 ^ 16 * selectorNumber r) := by
  apply word_eq_ofNat
  rw [toNat_cmdWord, toNat_toBits_eq_selectorNumber, BitVec.toNat_zero, BitVec.toNat_zero]
  omega

theorem decode_rd_word (r : RegSel) (data : Word) :
    decode (BitVec.ofNat 32 (0x31000000 + 2 ^ 16 * selectorNumber r)) data = .ok (.rd r) := by
  have hword : (encode (.rd r)).1 = BitVec.ofNat 32 (0x31000000 + 2 ^ 16 * selectorNumber r) := cmdWord_toBits 0x31 r
  rw [← hword]
  exact decode_encode_of_not_wr (i := .rd r) (by simp [Instr.opcode]) data

theorem decode_wr_word (r : RegSel) (value : Word) :
    decode (BitVec.ofNat 32 (0x32000000 + 2 ^ 16 * selectorNumber r)) value = .ok (.wr r value) := by
  have hword : (encode (.wr r value)).1 = BitVec.ofNat 32 (0x32000000 + 2 ^ 16 * selectorNumber r) :=
    cmdWord_toBits 0x32 r
  rw [← hword]
  exact decodeOfEncodeIsTheCommand (.wr r value)

/-! ### The clearing of the error record -/

/-- CLRERR clears the bits of ERR and ECODE and nothing else. -/
theorem exec_clrerr_eq (s : State) :
    exec .clrerr s = .next (answered 0 { s with st := s.st &&& 0xFFFF0EFF#32 }) := by
  rw [← clearError_eq]
  rfl

/-! ### The obligations -/

/-- Settles O51: the five selectors that have a register answer it, and the others raise BAD_REG. -/
theorem rdAnswersTheRegister : Obligations.RdAnswersTheRegister := by
  intro r data s
  refine ⟨decode_rd_word r data, ?_⟩
  cases r with
  | cur | endr | tag | len | st => exact exec_answered rfl rfl
  | undefined k =>
    rw [selectorNumber_undefined]
    exact congrArg Host.Outcome.next (raiseError_eq .badReg s)

/-- Settles O52: the two writable selectors answer after the write, the read-only ones raise RO_WRITE, and the others
BAD_REG. -/
theorem wrWritesCurOrEnd : Obligations.WrWritesCurOrEnd := by
  intro r value s
  refine ⟨decode_wr_word r value, ?_⟩
  cases r with
  | cur => exact congrArg Host.Outcome.next (respond_eq_answered rfl (s.setCur value))
  | endr => exact congrArg Host.Outcome.next (respond_eq_answered rfl (s.setEnd value))
  | tag | len | st => exact congrArg Host.Outcome.next (raiseError_eq .roWrite s)
  | undefined k =>
    rw [selectorNumber_undefined]
    exact congrArg Host.Outcome.next (raiseError_eq .badReg s)

/-- Settles O53: a word of CLRERR with a reserved bit set is one of those O8 speaks of. -/
theorem clrerrClearsTheErrorRecord : Obligations.ClrerrClearsTheErrorRecord := by
  refine ⟨fun data s => ⟨decode_encode_of_not_wr (i := .clrerr) (by decide) data, exec_clrerr_eq s⟩, ?_⟩
  intro cmd data s hop hreserved
  have hrow : cmd.toNat / 2 ^ 24 ∈ [0x21, 0x22, 0x33] := by rw [hop]; decide
  exact reservedBitSetIsNotPerformed cmd data s (.inr (.inr (.inl ⟨hrow, hreserved⟩)))

end Sys2Proof.Machine
end

section
/-! Proofs for 60_exceptions.md, the causes of errors: the first cause of a command word in the order of rule R96, that
a word with a first cause raises it and one without raises ACCESS alone, and that an error changes nothing else (rule
R97); and the idle step (rule R109). -/

namespace Sys2Proof.Machine

/-! ### The first cause of a word (rules R50, R89, R90, R96) -/

/-- The cause a BN operand has (rule R50). -/
def byteNoCause : ByteNo → Option ErrCode
  | .zero => some .badBn
  | .first => none
  | .second => none
  | .third => none

/-- The cause RD's selector has (rule R89). -/
def rdCause : RegSel → Option ErrCode
  | .undefined _ => some .badReg
  | .cur => none
  | .endr => none
  | .tag => none
  | .len => none
  | .st => none

/-- The cause WR's selector has (rule R90). -/
def wrCause : RegSel → Option ErrCode
  | .undefined _ => some .badReg
  | .cur => none
  | .endr => none
  | .tag => some .roWrite
  | .len => some .roWrite
  | .st => some .roWrite

/-- The cause a command's operands have (steps 3 and 4 of rule R56). -/
def operandCause : Instr → Option ErrCode
  | .tvalid _ n => byteNoCause n
  | .tnumf _ n => byteNoCause n
  | .rd r => rdCause r
  | .wr r _ => wrCause r
  | _ => none

/-- The first cause of what a word decodes to: OP and the must-be-zero bits come before the operands (rule R96). -/
def decodedCause : Except ErrCode Instr → Option ErrCode
  | .error c => some c
  | .ok i => operandCause i

/-- A row of the opcode map: its must-be-zero bits come before the operands. -/
theorem decodedCause_row (cmd m : Word) (i : Instr) :
    decodedCause (ifReservedClear cmd m i) = if cmd &&& m = 0 then operandCause i else some .reservedBits := by
  unfold ifReservedClear
  split <;> rfl

theorem byteNoCause_ofBits :
    ∀ n : BitVec 2, byteNoCause (ByteNo.ofBits n) = if n.toNat = 0 then some .badBn else none := by decide

theorem rdCause_ofBits :
    ∀ r : BitVec 4, rdCause (RegSel.ofBits r) = if 5 ≤ r.toNat then some .badReg else none := by decide

theorem wrCause_ofBits :
    ∀ r : BitVec 4, wrCause (RegSel.ofBits r) =
      if 5 ≤ r.toNat then some .badReg else if 2 ≤ r.toNat then some .roWrite else none := by decide

/-- The code of an error, as a number (rule R95). -/
def errorNumber (c : ErrCode) : Nat := (ErrCode.ecode c).toNat

/-! ### The claims' code, by the row of the opcode map (rules R53, R96) -/

section Rows
variable {cmd : Word}

theorem decodeErrorCode_of_b (hop : (opField cmd).toNat ∈ [0x01, 0x02, 0x03, 0x04, 0x05, 0x11, 0x12, 0x13]) :
    decodeErrorCode cmd = if cmd &&& reservedOfB = 0 then none else some 2 := by
  simp only [decodeErrorCode, ← toNat_opField, if_pos hop, reservedOfB_clear, ite_not]

theorem decodeErrorCode_of_bnB (hop : (opField cmd).toNat ∈ [0x06, 0x07]) :
    decodeErrorCode cmd =
      if cmd &&& reservedOfBnB = 0 then if (bnField cmd).toNat = 0 then some 3 else none else some 2 := by
  have hrow : (opField cmd).toNat ∉ [0x01, 0x02, 0x03, 0x04, 0x05, 0x11, 0x12, 0x13] := by
    simp only [List.mem_cons, List.not_mem_nil, or_false] at hop ⊢
    omega
  simp only [decodeErrorCode, ← toNat_opField, ← toNat_bnField, if_neg hrow, if_pos hop, reservedOfBnB_clear, ite_not]

theorem decodeErrorCode_of_noOperand (hop : (opField cmd).toNat ∈ [0x21, 0x22, 0x33]) :
    decodeErrorCode cmd = if cmd &&& reservedOfNone = 0 then none else some 2 := by
  simp only [List.mem_cons, List.not_mem_nil, or_false] at hop
  simp only [decodeErrorCode, ← toNat_opField, reservedOfNone_clear]
  obtain h | h | h := hop
  all_goals simp [h]

theorem decodeErrorCode_of_rd (hop : (opField cmd).toNat = 0x31) :
    decodeErrorCode cmd =
      if cmd &&& reservedOfRs = 0 then if 5 ≤ (rsField cmd).toNat then some 4 else none else some 2 := by
  simp only [decodeErrorCode, ← toNat_opField, ← toNat_rsField, hop, reservedOfRs_clear]
  simp only [← Decidable.not_and_iff_not_or_not, ne_eq, ite_not]
  rfl

theorem decodeErrorCode_of_wr (hop : (opField cmd).toNat = 0x32) :
    decodeErrorCode cmd =
      if cmd &&& reservedOfRs = 0 then
        if 5 ≤ (rsField cmd).toNat then some 4 else if 2 ≤ (rsField cmd).toNat then some 5 else none
      else some 2 := by
  simp only [decodeErrorCode, ← toNat_opField, ← toNat_rsField, hop, reservedOfRs_clear]
  simp only [← Decidable.not_and_iff_not_or_not, ne_eq, ite_not, true_and]
  rfl

end Rows

/-- The claims' code of a word is its first cause's: they agree on each row of the opcode map, which are numbered in
`decode`'s order. -/
theorem decodeErrorCode_eq (cmd data : Word) :
    decodeErrorCode cmd = (decodedCause (decode cmd data)).map errorNumber := by
  unfold decode
  split
  case h_1 hop | h_2 hop | h_3 hop | h_4 hop | h_5 hop | h_8 hop | h_9 hop | h_10 hop =>
    rw [decodedCause_row, decodeErrorCode_of_b (by rw [hop]; decide)]
    split <;> rfl
  case h_6 hop | h_7 hop =>
    rw [decodedCause_row, decodeErrorCode_of_bnB (by rw [hop]; decide), operandCause, byteNoCause_ofBits]
    repeat' split
    all_goals rfl
  case h_11 hop | h_12 hop | h_15 hop =>
    rw [decodedCause_row, decodeErrorCode_of_noOperand (by rw [hop]; decide)]
    split <;> rfl
  case h_13 hop =>
    rw [decodedCause_row, decodeErrorCode_of_rd hop, operandCause, rdCause_ofBits]
    repeat' split
    all_goals rfl
  case h_14 hop =>
    rw [decodedCause_row, decodeErrorCode_of_wr hop, operandCause, wrCause_ofBits]
    repeat' split
    all_goals rfl
  case h_16 =>
    have hcode : decodeErrorCode cmd = some 1 := by simp_all [decodeErrorCode, toNat_opField]
    exact hcode

/-! ### What a cause does -/

/-- A command whose operands have a cause raises it; another is a parse command or answers. -/
theorem exec_cause_cases (i : Instr) (s : State) :
    (∃ c, operandCause i = some c ∧ exec i s = .next (raiseError c s)) ∨
      operandCause i = none ∧ (isParse i ∨ ∃ v u, exec i s = .next (respond v u)) := by
  cases i with
  | tvalid b n | tnumf b n =>
    cases n with
    | zero => exact .inl ⟨_, rfl, rfl⟩
    | first | second | third => exact .inr ⟨rfl, .inr ⟨_, _, rfl⟩⟩
  | rd r =>
    cases r with
    | undefined k => exact .inl ⟨_, rfl, rfl⟩
    | cur | endr | tag | len | st => exact .inr ⟨rfl, .inr ⟨_, _, rfl⟩⟩
  | wr r value =>
    cases r with
    | tag | len | st | undefined k => exact .inl ⟨_, rfl, rfl⟩
    | cur | endr => exact .inr ⟨rfl, .inr ⟨_, _, rfl⟩⟩
  | tparse => exact .inr ⟨rfl, .inl (.inl rfl)⟩
  | lparse => exact .inr ⟨rfl, .inl (.inr rfl)⟩
  | tclass | tcons | tprim | tmulti | tlast | lvalid | lmulti | lgetlen | clrerr =>
    exact .inr ⟨rfl, .inr ⟨_, _, rfl⟩⟩

/-- A word with a first cause raises it. -/
theorem acceptCommand_of_cause {cmd data : Word} {c : ErrCode} (h : decodedCause (decode cmd data) = some c)
    (s : State) : acceptCommand cmd data s = .next (raiseError c s) := by
  cases hdecode : decode cmd data with
  | error e =>
    rw [hdecode] at h
    cases h
    exact acceptCommand_error hdecode s
  | ok i =>
    rw [hdecode] at h
    obtain ⟨c', hcause, hexec⟩ | ⟨hnone, -⟩ := exec_cause_cases i s
    · cases hcause.symm.trans h
      rw [acceptCommand_ok hdecode, hexec]
    · cases hnone.symm.trans h

/-- A word without a first cause errs only as a parse command, with ACCESS (rules R77, R96). -/
theorem access_of_no_cause {cmd data : Word} {s t : State} (h : decodedCause (decode cmd data) = none)
    (ht : acceptCommand cmd data s = .next t) (herr : Erred t) :
    (cmd = 0x21000000 ∨ cmd = 0x22000000) ∧ t = raiseError .access (s.setDraws t.draws) := by
  cases hdecode : decode cmd data with
  | error e =>
    rw [hdecode] at h
    cases h
  | ok i =>
    rw [hdecode] at h
    rw [acceptCommand_ok hdecode] at ht
    obtain ⟨c, hcause, -⟩ | ⟨-, hparse | ⟨v, u, hanswer⟩⟩ := exec_cause_cases i s
    · cases hcause.symm.trans h
    · refine ⟨?_, (accessErrorRestoresTheState i s t hparse ht herr).trans (raiseError_eq .access _).symm⟩
      obtain rfl | rfl := hparse
      · exact .inl (word_of_decode hdecode).symm
      · exact .inr (word_of_decode hdecode).symm
    · cases hanswer.symm.trans ht
      exact absurd herr (not_erred_respond v u)

/-- The error a word reports when it errs: its first cause, or ACCESS where it has none (rule R96). -/
def reportedError (cmd data : Word) : ErrCode := (decodedCause (decode cmd data)).getD .access

theorem errorNumber_reportedError (cmd data : Word) :
    errorNumber (reportedError cmd data) = (decodeErrorCode cmd).getD 6 := by
  rw [reportedError, decodeErrorCode_eq cmd data]
  cases decodedCause (decode cmd data) <;> rfl

/-- A command that errs leaves the state before it with the error it reports (rules R96, R97); the free bytes drawn stay
drawn (log 11). -/
theorem eq_raiseError_of_erred {cmd data : Word} {s t : State} (ht : acceptCommand cmd data s = .next t)
    (herr : Erred t) : t = raiseError (reportedError cmd data) (s.setDraws t.draws) := by
  cases hcause : decodedCause (decode cmd data) with
  | some c =>
    cases (acceptCommand_of_cause hcause s).symm.trans ht
    rw [reportedError, hcause]
    rfl
  | none =>
    rw [reportedError, hcause]
    exact (access_of_no_cause hcause ht herr).2

/-! ### The obligations -/

/-- Settles O9: the claims' code of a word is its first cause's, which the word raises; without one only a parse command
can err. -/
theorem firstCauseDecidesTheError : Obligations.FirstCauseDecidesTheError := by
  intro cmd data s
  rw [decodeErrorCode_eq cmd data]
  refine ⟨fun n hn => ?_, fun hnone => ?_⟩
  · obtain ⟨c, hcause, rfl⟩ := Option.map_eq_some_iff.mp hn
    rw [acceptCommand_of_cause hcause, raiseError_eq, errorNumber]
  · obtain ⟨t, ht⟩ := acceptCommand_completes cmd data s
    refine ⟨t, ht, fun herr => ?_⟩
    obtain ⟨hword, hstate⟩ := access_of_no_cause (Option.map_eq_none_iff.mp hnone) ht herr
    exact ⟨hword, hstate.trans (raiseError_eq ..)⟩

/-- Settles O25: the state after is the one the reported error leaves, in the terms claims use. -/
theorem errorsArePrecise : Obligations.ErrorsArePrecise := by
  intro cmd data s t ht herr
  obtain ⟨h1, h6⟩ := ecode_range (reportedError cmd data)
  exact ⟨_, h1, h6, (eq_raiseError_of_erred ht herr).trans (raiseError_eq ..)⟩

/-- Settles O36: a step takes the next event, and there is none. -/
theorem idleTlviHoldsItsState : Obligations.IdleTlviHoldsItsState := fun _ => step_idle

end Sys2Proof.Machine
end

section
/-! Proofs for 60_exceptions.md, the error record: no command but RD ST looks at ERR or ECODE, so ERR = 1 changes none
(rule R99), and after CLRERR a command that erred errs again and records its code (rules R97, R98). -/

namespace Sys2Proof.Machine

/-! ### Writes of ST that leave ERR and ECODE out of the other bits -/

/-- What is written outside ERR and ECODE does not depend on ERR and ECODE. -/
def BlindToErrors (write : Word → Word) : Prop :=
  ∀ v w, v &&& 0xFFFF0EFF#32 = w &&& 0xFFFF0EFF#32 → write v &&& 0xFFFF0EFF#32 = write w &&& 0xFFFF0EFF#32

theorem BlindToErrors.unchanged : BlindToErrors id := fun _ _ h => h

/-- A write that keeps the bits of a mask and sets others. -/
theorem BlindToErrors.fields (keep bits : Word) : BlindToErrors fun v => (v &&& keep) ||| bits := by
  intro v w h
  refine and_mask_congr fun i hi hm => ?_
  have hbit := congrArg (BitVec.getLsbD · i) h
  simp only [BitVec.getLsbD_and, hm, Bool.and_true] at hbit
  simp only [BitVec.getLsbD_or, BitVec.getLsbD_and, hbit]

theorem BlindToErrors.tagStatus (tok exh cons skip : Bool) : BlindToErrors (tagStatus · tok exh cons skip) :=
  .fields _ _

theorem BlindToErrors.lenStatus (lok linv exh llong : Bool) : BlindToErrors (lenStatus · lok linv exh llong) :=
  .fields _ _

theorem withError_frame (st : Word) (c : ErrCode) : St.withError st c &&& 0xFFFF0EFF#32 = st &&& 0xFFFF0EFF#32 := by
  refine and_mask_congr fun i hi hm => ?_
  obtain ⟨h8, hcode⟩ : i ≠ 8 ∧ ¬ (12 ≤ i ∧ i < 16) := by
    simpa only [getLsbD_errorMask i hi, Bool.not_eq_true', Bool.or_eq_false_iff, decide_eq_false_iff_not] using hm
  exact getLsbD_withError_other st c h8 hcode

theorem BlindToErrors.withError (c : ErrCode) : BlindToErrors (St.withError · c) :=
  fun v w h => by rw [withError_frame, withError_frame, h]

theorem BlindToErrors.clearError : BlindToErrors St.clearError :=
  fun v w h => by rw [clearError_eq, clearError_eq, h]

/-! ### What a command makes of ST -/

/-- Over every value of ST and of the last response the command leaves one state but for ST, which it takes from ST by a
write blind to the error record. -/
def IgnoresErrors (s : State) (run : State → Host.Outcome State Fault Refusal) : Prop :=
  ∃ (t : State) (write : Word → Word), BlindToErrors write ∧
    ∀ st r, run ((s.setSt st).setResp r) = .next (t.setSt (write st))

section Ignores
variable (s : State)

theorem IgnoresErrors.answer (v : Word) : IgnoresErrors s fun s => .next (respond v s) :=
  ⟨respond v s, id, .unchanged, fun _ _ => rfl⟩

theorem IgnoresErrors.error (c : ErrCode) : IgnoresErrors s fun s => .next (raiseError c s) :=
  ⟨raiseError c s, _, .withError c, fun _ _ => rfl⟩

/-- ACCESS, or the range exhausted: which of the two does not depend on ST (rules R77, R82). -/
theorem IgnoresErrors.tagUnfinished (skipped : Bool) : IgnoresErrors s fun s => .next (tagUnfinished s skipped) := by
  simp only [tagUnfinished_eq, tagExhausted, withTagFlags_eq]
  by_cases hin : (rangeBytes s).length < s.rangeLen
  · exact ⟨raiseAccess s (s.advance (rangeBytes s).length), _, .withError .access, fun _ _ => congrArg _ (if_pos hin)⟩
  · exact ⟨tagExhausted skipped (s.advance (rangeBytes s).length), _, .tagStatus false true false skipped,
      fun _ _ => congrArg _ (if_neg hin)⟩

theorem IgnoresErrors.tagTaken (skip : Nat) (tb : List Byte) : IgnoresErrors s fun s => .next (tagTaken s skip tb) :=
  ⟨Machine.tagTaken s skip tb, _, .tagStatus true false ((tb.headD 0).toNat / 32 % 2 == 1) (decide (0 < skip)),
    fun _ _ => rfl⟩

theorem IgnoresErrors.tagEnd (skip : Nat) : ∀ field : Option (List Byte),
    IgnoresErrors s fun s => .next (field.elim (Machine.tagUnfinished s (decide (0 < skip))) (Machine.tagTaken s skip))
  | none => .tagUnfinished s (decide (0 < skip))
  | some tb => .tagTaken s skip tb

/-- The bytes of the range do not depend on ST, so TPARSE comes to the same end. -/
theorem exec_tparse_ignoresErrors : IgnoresErrors s (exec .tparse) := by
  obtain ⟨t, write, hblind, hrun⟩ :=
    IgnoresErrors.tagEnd s (skippedBytes s).length (tagField ((rangeBytes s).dropWhile (· == 0)))
  refine ⟨t, write, hblind, fun st r => Eq.trans ?_ (hrun st r)⟩
  rw [exec_tparse_eq, tparseOfRange_eq]
  rfl

theorem IgnoresErrors.lengthRead (f : LenField) : IgnoresErrors s fun s => .next (lengthRead s f) := by
  cases f with
  | value v long used =>
    exact ⟨Machine.lengthRead s (.value v long used), _, .lenStatus true false false long, fun _ _ => rfl⟩
  | invalid => exact ⟨Machine.lengthRead s .invalid, _, .lenStatus false true false false, fun _ _ => rfl⟩
  | unfinished long =>
    simp only [lengthRead_unfinished, lenExhausted, withLenFlags_eq]
    by_cases hin : (rangeBytes s).length < s.rangeLen
    · exact ⟨raiseAccess s (s.advance (rangeBytes s).length), _, .withError .access, fun _ _ => congrArg _ (if_pos hin)⟩
    · exact ⟨lenExhausted long (s.advance (rangeBytes s).length), _, .lenStatus false false true long,
        fun _ _ => congrArg _ (if_neg hin)⟩

theorem exec_lparse_ignoresErrors : IgnoresErrors s (exec .lparse) := by
  obtain ⟨t, write, hblind, hrun⟩ := IgnoresErrors.lengthRead s (lengthField (rangeBytes s))
  refine ⟨t, write, hblind, fun st r => Eq.trans ?_ (hrun st r)⟩
  rw [exec_lparse_eq, lparseOfRange_eq]
  rfl

/-- RD ST apart, every command ignores ERR and ECODE (rule R99). -/
theorem exec_ignoresErrors {i : Instr} (hrd : i ≠ .rd .st) : IgnoresErrors s (exec i) := by
  cases i with
  | tparse => exact exec_tparse_ignoresErrors s
  | lparse => exact exec_lparse_ignoresErrors s
  | tclass | tcons | tprim | tmulti | tlast | lvalid | lmulti | lgetlen => exact .answer s _
  | tvalid b n | tnumf b n =>
    cases n with
    | zero => exact .error s .badBn
    | first | second | third => exact .answer s _
  | rd r =>
    cases r with
    | cur => exact .answer s s.cur
    | endr => exact .answer s s.endr
    | tag => exact .answer s s.tag
    | len => exact .answer s s.len
    | st => exact absurd rfl hrd
    | undefined k => exact .error s .badReg
  | wr r value =>
    cases r with
    | cur => exact ⟨respond 0 (s.setCur value), id, .unchanged, fun _ _ => rfl⟩
    | endr => exact ⟨respond 0 (s.setEnd value), id, .unchanged, fun _ _ => rfl⟩
    | tag | len | st => exact .error s .roWrite
    | undefined k => exact .error s .badReg
  | clrerr => exact ⟨respond 0 s, _, .clearError, fun _ _ => rfl⟩

theorem acceptCommand_ignoresErrors {cmd data : Word} (hrd : decode cmd data ≠ .ok (.rd .st)) :
    IgnoresErrors s (acceptCommand cmd data) := by
  cases hdecode : decode cmd data with
  | error c =>
    rw [funext (acceptCommand_error hdecode)]
    exact .error s c
  | ok i =>
    rw [funext (acceptCommand_ok hdecode)]
    exact exec_ignoresErrors s fun hi => hrd (hi ▸ hdecode)

end Ignores

/-- A command that ignores errors leaves the same state but for ERR and ECODE when ST differs in them alone, whatever
the last response. -/
theorem IgnoresErrors.compare {s t : State} {run : State → Host.Outcome State Fault Refusal}
    (h : IgnoresErrors s run) (ht : run s = .next t) {st : Word}
    (hst : st &&& 0xFFFF0EFF#32 = s.st &&& 0xFFFF0EFF#32) (r : Option Response) :
    ∃ st', st' &&& 0xFFFF0EFF#32 = t.st &&& 0xFFFF0EFF#32 ∧ run ((s.setSt st).setResp r) = .next (t.setSt st') := by
  obtain ⟨u, write, hblind, hrun⟩ := h
  have hsame : run s = .next (u.setSt (write s.st)) := hrun s.st s.resp
  cases hsame.symm.trans ht
  exact ⟨write st, hblind _ _ hst, hrun st r⟩

/-! ### RD ST (rule R89) -/

theorem decode_eq_rd_st_iff {cmd data : Word} : decode cmd data = .ok (.rd .st) ↔ cmd = 0x31040000 := by
  constructor
  · intro h
    exact (word_of_decode h).symm
  · rintro rfl
    exact decode_rd_word .st data

/-- RD ST answers, so it is not a command that errs. -/
theorem decode_ne_rd_st_of_erred {cmd data : Word} {s t : State} (ht : acceptCommand cmd data s = .next t)
    (herr : Erred t) : decode cmd data ≠ .ok (.rd .st) := by
  intro h
  cases (acceptCommand_ok h s).symm.trans ht
  exact not_erred_respond s.st s herr

/-! ### The obligations -/

/-- Settles O27: RD ST answers ST and changes nothing; every other command ignores ERR and ECODE. -/
theorem errBlocksNoCommand : Obligations.ErrBlocksNoCommand := by
  intro cmd data st s t hst ht
  by_cases hcmd : cmd = 0x31040000
  · have hread : ∀ s, acceptCommand cmd data s = .next (respond s.st s) :=
      fun s => acceptCommand_ok (decode_eq_rd_st_iff.mpr hcmd) s
    cases (hread s).symm.trans ht
    refine ⟨_, hread _, rfl, rfl, rfl, rfl, rfl, hst, ?_⟩
    rw [if_pos hcmd]
    rfl
  · have hignores := acceptCommand_ignoresErrors s (mt (decode_eq_rd_st_iff (data := data)).mp hcmd)
    obtain ⟨st', hst', ht'⟩ := hignores.compare ht hst s.resp
    refine ⟨_, ht', rfl, rfl, rfl, rfl, rfl, hst', ?_⟩
    rw [if_neg hcmd]
    rfl

/-- Settles O26: the state after is the one the reported error leaves; after CLRERR, which writes ERR and ECODE alone,
the command errs again, now with ERR 0 before. -/
theorem onlyTheFirstErrorIsRecorded : Obligations.OnlyTheFirstErrorIsRecorded := by
  intro cmd data s t ht herr c
  have hcode : errorNumber (reportedError cmd data) = c := errorNumber_reportedError cmd data
  have hst : t.st = St.withError s.st (reportedError cmd data) := congrArg State.st (eq_raiseError_of_erred ht herr)
  obtain ⟨h1, h6⟩ := ecode_range (reportedError cmd data)
  refine ⟨fun hset => hst.trans (withError_later hset _), hcode ▸ h1, hcode ▸ h6, fun hclear => ?_, ?_⟩
  · rw [hst, ecode_withError_first hclear]
    exact hcode
  · have hignores := acceptCommand_ignoresErrors s (decode_ne_rd_st_of_erred ht herr)
    have hframe : St.clearError s.st &&& 0xFFFF0EFF#32 = s.st &&& 0xFFFF0EFF#32 := by
      rw [clearError_eq, BitVec.and_assoc, BitVec.and_self]
    obtain ⟨st', -, hv⟩ := hignores.compare ht hframe (some { rsp := 0, rerr := false })
    have hagain : Erred (t.setSt st') := herr
    have hst' : st' = St.withError (St.clearError s.st) (reportedError cmd data) :=
      congrArg State.st (eq_raiseError_of_erred hv hagain)
    refine ⟨_, t.setSt st', rfl, hv, hagain, ?_, ?_⟩
    · rw [State.setSt_st, hst', err_withError]
    · rw [State.setSt_st, hst', ecode_withError_first (err_clearError s.st)]
      exact hcode

end Sys2Proof.Machine
end

section
/-! Proofs for 70_reset_and_hazards.md, the port: reset (rules R110, R111) and a command presented early (rule R118). -/

namespace Sys2Proof.Machine

/-- Settles O37: both reset events are the one reset. -/
theorem resetClearsEveryRegister : Obligations.ResetClearsEveryRegister := by
  intro s rest e hport he
  have hreset : portEvent e (s.setPort rest) = .next (s.setPort rest).applyReset := by
    obtain rfl | ⟨cmd, data, rfl⟩ := he <;> rfl
  exact ⟨_, (step_cons hport).trans hreset, rfl, rfl, rfl, rfl, rfl, rfl, rfl⟩

/-- Settles O39: the event is taken from the port, and its arm is the fault. -/
theorem overlappingCommandsHaveNoStep : Obligations.OverlappingCommandsHaveNoStep :=
  fun _ _ _ _ _ _ hport => step_cons hport

end Sys2Proof.Machine
end

section
/-! Proofs for 70_reset_and_hazards.md, the host's decode: where the range begins with a whole tag and length field, a
turn of the loop of rule R121 takes both; the element is put into the tree when a byte is left after them (rule R123),
and the loop ends with the tree as it was when none is (rule R122). -/

namespace Sys2Proof.Machine

/-! ### Ranges and the bytes of IN -/

theorem drop_bytesBetween (m : Memory) (a e n : Nat) : (bytesBetween m a e).drop n = bytesBetween m (a + n) e := by
  apply List.ext_getElem
  · rw [List.length_drop, length_bytesBetween, length_bytesBetween, Nat.sub_sub]
  · intro i _ _
    simp [bytesBetween, Nat.add_assoc]

theorem take_bytesBetween (m : Memory) (a e n : Nat) :
    (bytesBetween m a e).take n = bytesBetween m a (a + min n (e - a)) := by
  rw [bytesBetween, bytesBetween, ← List.map_take, List.take_range, Nat.add_sub_cancel_left]

/-- The part of a plain range still to come is plain. -/
theorem PlainRange.of_later {s t : State} (h : PlainRange s) (hcur : s.cur.toNat ≤ t.cur.toNat)
    (hend : t.endr = s.endr) (hmem : t.mem = s.mem) : PlainRange t := by
  intro a hlo hhi
  rw [hmem]
  exact h a (Nat.le_trans hcur hlo) (hend ▸ hhi)

/-! ### The fields read -/

/-- A length field's value fits LEN (rules R6, R84). -/
theorem lengthField_value_lt {bs : List Byte} {v used : Nat} {long : Bool} (h : lengthField bs = .value v long used) :
    v < 2 ^ 32 := by
  obtain - | ⟨l0, bs⟩ := bs
  · cases h
  have h0 := l0.isLt
  rw [lengthField] at h
  split at h
  · injection h
    omega
  split at h
  · cases h
  next hvalid =>
  split at h
  · cases h
  · injection h with hv
    rw [← hv]
    have h4 : (bs.take (l0.toNat - 0x80)).length ≤ 4 := by rw [List.length_take]; omega
    calc bigEndian (bs.take (l0.toNat - 0x80))
        _ < 256 ^ (bs.take (l0.toNat - 0x80)).length := bigEndian_lt _
        _ ≤ 256 ^ 4 := Nat.pow_le_pow_right (by decide) h4
        _ = 2 ^ 32 := by decide

/-- What comes after the element's fields ends the list. -/
theorem rest_suffix_of_begins {bytes tb lb rest : List Byte} {skip v : Nat}
    (h : BeginsWithElement bytes skip tb lb v rest) : rest <:+ bytes := by
  obtain ⟨rfl, -⟩ := h
  exact ((List.suffix_append lb rest).trans (List.suffix_append tb _)).trans (List.suffix_append _ _)

/-- The text of the tag taken (rule R20). -/
theorem tagText_tagTaken (s : State) (skip : Nat) {tb : List Byte} (hfield : tagField tb = some tb) :
    tagText (tagTaken s skip tb).tag = some (hexText true tb) := by
  obtain ⟨h1, h3⟩ := tagField_length hfield
  have hlt := bigEndian_lt_tbytes h3
  refine tagText_eq h1 h3 ?_
  rw [tagTaken, BitVec.toNat_ofNat]
  omega

theorem cons_tagTaken (s : State) (skip : Nat) (tb : List Byte) :
    St.cons (tagTaken s skip tb).st = (tb.headD 0).getLsbD 5 := by
  rw [tagTaken, cons_tagStatus, ← tagConstructed_eq, tagConstructed]

/-! ### The commands of a turn -/

theorem issue_tparse_eq (s : State) : issue .tparse s = tparseOfRange s := issue_of_exec (exec_tparse_eq s)

theorem issue_lparse_eq (s : State) : issue .lparse s = lparseOfRange s := issue_of_exec (exec_lparse_eq s)

/-- TPARSE and then LPARSE from `s` take the tag field `tb` and a length field of value `v`, and leave `left` bytes of
the range. -/
structure TakesHeader (s : State) (tb : List Byte) (v left : Nat) : Prop where
  tok : St.tok (issue .tparse s).st = true
  cons : St.cons (issue .tparse s).st = (tb.headD 0).getLsbD 5
  text : tagText (issue .tparse s).tag = some (hexText true tb)
  lok : St.lok (issue .lparse (issue .tparse s)).st = true
  len : (issue .lparse (issue .tparse s)).len.toNat = v
  cur : (issue .lparse (issue .tparse s)).cur.toNat = s.endr.toNat - left
  endr : (issue .lparse (issue .tparse s)).endr = s.endr
  mem : (issue .lparse (issue .tparse s)).mem = s.mem

/-- A plain range inside IN that begins with an element: the fields are read off its list of bytes. -/
theorem takesHeader_of_begins {s : State} {skip v : Nat} {tb lb rest : List Byte} (hplain : PlainRange s)
    (hinside : EndInsideIn s)
    (h : BeginsWithElement (bytesBetween s.mem s.cur.toNat s.endr.toNat) skip tb lb v rest) :
    TakesHeader s tb v rest.length := by
  obtain ⟨hbytes, hne, htag, long, hlen⟩ := h
  have hcount : s.endr.toNat - s.cur.toNat = skip + (tb.length + (lb.length + rest.length)) := by
    simpa using congrArg List.length hbytes
  obtain ⟨hlb, -⟩ := lengthField_used_le hlen
  have htparse : issue .tparse s = tagTaken s skip tb := by
    rw [issue_tparse_eq, tparseOfRange_of_append (rangeBytes_plain hplain hinside ▸ hbytes) hne htag]
  have hcur : (tagTaken s skip tb).cur.toNat = s.cur.toNat + (skip + tb.length) :=
    toNat_advance (by rw [State.rangeLen]; omega)
  have hrest : rangeBytes (tagTaken s skip tb) = lb ++ rest := by
    have hlater : PlainRange (tagTaken s skip tb) := hplain.of_later (by omega) rfl rfl
    calc rangeBytes (tagTaken s skip tb)
        _ = bytesBetween s.mem (tagTaken s skip tb).cur.toNat s.endr.toNat := rangeBytes_plain hlater hinside
        _ = (bytesBetween s.mem s.cur.toNat s.endr.toNat).drop (skip + tb.length) := by rw [hcur, drop_bytesBetween]
        _ = lb ++ rest := by
          rw [hbytes, ← List.append_assoc]
          exact List.drop_left' (by simp)
  have hlparse : issue .lparse (tagTaken s skip tb) = lengthRead (tagTaken s skip tb) (.value v long lb.length) := by
    rw [issue_lparse_eq, lparseOfRange_eq, hrest, lengthField_append hlen]
  have hend : (lengthRead (tagTaken s skip tb) (.value v long lb.length)).cur.toNat =
      (tagTaken s skip tb).cur.toNat + lb.length :=
    toNat_advance (by rw [State.rangeLen, hcur, show (tagTaken s skip tb).endr = s.endr from rfl]; omega)
  constructor <;> rw [htparse]
  case tok => exact tok_tagStatus ..
  case cons => exact cons_tagTaken s skip tb
  case text => exact tagText_tagTaken s skip htag
  all_goals rw [hlparse]
  case lok => exact lok_lenStatus ..
  case len => exact Nat.mod_eq_of_lt (lengthField_value_lt hlen)
  case cur => omega
  case endr => rfl
  case mem => rfl

/-- `WR CUR` of an address. -/
theorem cur_issue_wr_cur {a : Nat} (ha : a < 2 ^ 32) (s : State) :
    (issue (.wr .cur (BitVec.ofNat 32 a)) s).cur.toNat = a := by
  rw [issue_wr_cur_eq, respond_cur, State.setCur_cur, BitVec.toNat_ofNat, Nat.mod_eq_of_lt ha]

/-- `WR CUR` and then `WR END`: the start of a level (rule R121). -/
def levelStart (a e : Nat) (s : State) : State :=
  issue (.wr .endr (BitVec.ofNat 32 e)) (issue (.wr .cur (BitVec.ofNat 32 a)) s)

@[simp] theorem levelStart_mem (a e : Nat) (s : State) : (levelStart a e s).mem = s.mem := by
  rw [levelStart, issue_wr_endr_eq, issue_wr_cur_eq]
  rfl

theorem levelStart_cur {a : Nat} (ha : a < 2 ^ 32) (e : Nat) (s : State) : (levelStart a e s).cur.toNat = a := by
  rw [levelStart, issue_wr_endr_eq, respond_cur, State.setEnd_cur, cur_issue_wr_cur ha]

theorem levelStart_endr (a : Nat) {e : Nat} (he : e < 2 ^ 32) (s : State) : (levelStart a e s).endr.toNat = e := by
  rw [levelStart, issue_wr_endr_eq, respond_endr, State.setEnd_endr, BitVec.toNat_ofNat, Nat.mod_eq_of_lt he]

/-- A level inside IN leaves IN as it was. -/
theorem parseLoop_levelStart_mem (fuel a : Nat) {e : Nat} {s : State} (he : e ≤ s.mem.size) (tree : Tree) :
    (parseLoop fuel e tree (levelStart a e s)).2.mem = s.mem := by
  have hstart : QuietSince (levelStart a e s) (levelStart a e s) :=
    wrEnd_quiet (by rw [levelStart, issue_wr_endr_eq]; rfl) (by simp [issue_wr_cur_eq]) (by simpa using he)
  rw [(parseLoop_quiet fuel tree hstart (by simpa using he)).mem, levelStart_mem]

/-! ### The turns (rules R121 to R123) -/

/-- With no byte left the loop ends with the tree built so far. -/
theorem TakesHeader.parseLoop_stop {s : State} {tb : List Byte} {v : Nat} (h : TakesHeader s tb v 0) (fuel : Nat)
    (tree : Tree) : (parseLoop (fuel + 1) s.endr.toNat tree s).1 = tree := by
  have hcur := h.cur
  simp only [parseLoop, h.tok, h.lok, Bool.true_eq_false, if_false]
  rw [if_pos (by omega)]

section Turn
variable {s : State} {tb : List Byte} {v left : Nat} (h : TakesHeader s tb v left) (fuel : Nat) (tree : Tree)
include h

/-- With a byte left a primitive element is put. -/
theorem TakesHeader.parseLoop_leaf (hleft : s.endr.toNat - left < s.endr.toNat)
    (hprim : (tb.headD 0).getLsbD 5 = false) :
    parseLoop (fuel + 1) s.endr.toNat tree s =
      let p := s.endr.toNat - left
      parseLoop fuel s.endr.toNat
        (Tree.putLeaf (hexText true tb) v (hexText false (inputBytes s.mem p (min v (s.endr.toNat - p)))) tree)
        (issue (.wr .cur (BitVec.ofNat 32 (min (p + v) s.endr.toNat))) (issue .lparse (issue .tparse s))) := by
  simp only [parseLoop, h.tok, h.lok, h.cons, h.text, h.len, h.cur, h.mem, hprim, Option.getD_some, Bool.true_eq_false,
    Bool.false_eq_true, if_false]
  rw [if_neg (by omega)]

/-- With a byte left a constructed element is put, with the tree of its own level. -/
theorem TakesHeader.parseLoop_node (hleft : s.endr.toNat - left < s.endr.toNat)
    (hcons : (tb.headD 0).getLsbD 5 = true) :
    parseLoop (fuel + 1) s.endr.toNat tree s =
      let p := s.endr.toNat - left
      let stop := p + min v (s.endr.toNat - p)
      let inner := parseLoop fuel stop .empty (levelStart p stop (issue .lparse (issue .tparse s)))
      parseLoop fuel s.endr.toNat (Tree.putNode (hexText true tb) v inner.1 tree)
        (issue (.wr .cur (BitVec.ofNat 32 (min (p + v) s.endr.toNat)))
          (issue (.wr .endr (BitVec.ofNat 32 s.endr.toNat)) inner.2)) := by
  simp only [parseLoop, h.tok, h.lok, h.cons, h.text, h.len, h.cur, hcons, Option.getD_some, Bool.true_eq_false,
    if_false, if_true]
  rw [if_neg (by omega)]
  rfl

end Turn

/-! ### The obligations -/

/-- Settles O33: the turn takes the fields and finds no byte left; a level begins with CUR and END at its ends. -/
theorem trailingLengthFieldEmitsNoNode : Obligations.TrailingLengthFieldEmitsNoNode := by
  refine ⟨fun s fuel tree skip tb lb v hplain hinside hbegins =>
    (takesHeader_of_begins hplain hinside hbegins).parseLoop_stop fuel tree, ?_⟩
  intro a e s skip tb lb v ha he hsize hplain hbegins
  have hcur := levelStart_cur ha e s
  have hend := levelStart_endr a he s
  have hmem := levelStart_mem a e s
  have hheader : TakesHeader (levelStart a e s) tb v 0 :=
    takesHeader_of_begins (skip := skip) (lb := lb) (rest := [])
      (by simpa only [PlainRange, hcur, hend, hmem] using hplain) (by rwa [EndInsideIn, hend, hmem])
      (by rwa [hcur, hend, hmem])
  have hlevel := hheader.parseLoop_stop (e - a) .empty
  rwa [hend] at hlevel

/-- Settles O56: the turn takes the fields, the bytes after them are the rest of the list, and the host's writes of CUR
and END set the ends of the inner level and of the next turn. -/
theorem elementWithAByteLeftIsPut : Obligations.ElementWithAByteLeftIsPut := by
  intro s fuel tree skip tb lb rest v hplain hinside hbegins hrest e p
  have hheader := takesHeader_of_begins hplain hinside hbegins
  have hmem := hheader.mem
  have hend : e < 2 ^ 32 := s.endr.isLt
  have hpos := List.length_pos_iff.mpr hrest
  have hsuffix := rest_suffix_of_begins hbegins
  have hcount : rest.length ≤ e - s.cur.toNat := by simpa using hsuffix.length_le
  have hleft : e - p = rest.length := by omega
  have hp : p < e := by omega
  cases hkind : (tb.headD 0).getLsbD 5 with
  | false =>
    have hvalue : inputBytes s.mem p (min v (e - p)) = rest.take v := by
      have hdrop : bytesBetween s.mem p e = rest := by
        rw [show p = s.cur.toNat + (e - s.cur.toNat - rest.length) by omega, ← drop_bytesBetween]
        simpa using (List.suffix_iff_eq_drop.mp hsuffix).symm
      rw [inputBytes_eq, ← take_bytesBetween, hdrop]
    refine ⟨_, cur_issue_wr_cur (by omega) (issue .lparse (issue .tparse s)), ?_, ?_, ?_⟩
    · rw [issue_wr_cur_eq]
      exact hheader.endr
    · rw [issue_wr_cur_eq]
      exact hmem
    · rw [if_neg nofun, ← hvalue]
      exact hheader.parseLoop_leaf fuel tree hp hkind
  | true =>
    let stop := p + min v (e - p)
    let start := levelStart p stop (issue .lparse (issue .tparse s))
    have hinner : (parseLoop fuel stop .empty start).2.mem = s.mem := by
      rw [parseLoop_levelStart_mem fuel p _, hmem]
      rw [hmem]
      exact Nat.le_trans (by omega) hinside
    refine ⟨_, cur_issue_wr_cur (by omega)
      (issue (.wr .endr (BitVec.ofNat 32 e)) (parseLoop fuel stop .empty start).2), ?_, ?_, ?_⟩
    · rw [issue_wr_cur_eq, issue_wr_endr_eq]
      exact BitVec.ofNat_toNat ..
    · rw [issue_wr_cur_eq, issue_wr_endr_eq]
      exact hinner
    · have hstop : start.endr.toNat = stop := levelStart_endr p (by omega) _
      rw [if_pos rfl]
      refine ⟨start, levelStart_cur (by omega) _ _, hleft ▸ hstop, (levelStart_mem ..).trans hmem, ?_⟩
      rw [hstop]
      exact hheader.parseLoop_node fuel tree hp hkind

end Sys2Proof.Machine
end
